-- ==== Sys2Proof/Word.lean ====
section
/-! DEFINITION. The word of the tape machine (`00_scope.md` rule R9). -/

namespace Sys2Proof

/-- A tape word, input word or output word: a signed integer.
Rule R9 computes on `Int` and says that every value written to state is a word, that is, lies in the range of a `W`-bit
two's-complement integer.
`W` is an open parameter (R7, R8), so the range is not in the type: it is `Machine.Fits` (Machine/Width.lean) and
`Machine.State.Inv` (Safety.lean), which every step keeps.
The name marks the sequences of words that state and configuration hold; values in flight are plain `Int`, as in the
spec's pseudocode. -/
abbrev Word := Int

end Sys2Proof
end

