-- ==== Sys2Proof/Config.lean ====
section
/-! DEFINITION. The implementation parameters of `00_scope.md` rule R7 that a run keeps fixed.
They stand in one record, which `Machine.State` carries and no step writes, so that a claim about every state is a claim
about every width, both overflow modes and every input sequence (log entry 1).
`N` is the tape's own size field; `TAPE0` is `Machine.construct`'s argument. -/

namespace Sys2Proof

/-- `OVERFLOW_MODE` (R7): what ADD and MUL do when the exact result does not fit in `W` bits. -/
inductive OverflowMode where
  /-- `Fault`, the spec's default: the `ArithmeticOverflow` fault (R174). -/
  | fault
  /-- `Wrap`: two's-complement truncation (R102). -/
  | wrap
  deriving DecidableEq, Repr

/-- The parameters fixed at construction (R7, R20). -/
structure Config where
  /-- `W`, the word width in bits; the spec admits any `W >= 16` (R7, R8). -/
  wordBits : Nat
  /-- `OVERFLOW_MODE`. -/
  overflowMode : OverflowMode
  /-- `INPUT`, the input sequence, in the order IN consumes it (R49). -/
  input : List Word
  deriving DecidableEq, Repr

/-- `M`, the number of words of the input sequence (R7). -/
def Config.inputLen (c : Config) : Nat := c.input.length

end Sys2Proof
end

