-- ==== Sys2Proof/Machine/Parameters.lean ====
section
/-! DEFINITION. The parameter values of `State.reset`.
The spec leaves `W` and `INPUT` to the caller (R7); only the claims about `State.reset` itself rest on the
values named here (log entry 2). -/

namespace Sys2Proof.Machine

/-- The parameters of `State.reset`: `W = 64` (DESIGN CHOICE, log entry 2), `OVERFLOW_MODE = Fault`, the spec's default
(R7), and the empty input sequence (DESIGN CHOICE, log entry 3). -/
def defaultConfig : Config := { wordBits := 64, overflowMode := .fault, input := [] }

end Sys2Proof.Machine
end

