-- ==== Sys2Proof/Syntax.lean ====
section
/-! DEFINITION. The decoded instruction (`30_encoding.md` rules R60 to R66): an opcode with the decoder's three mode
outputs.
The operand words are not part of it: they are whole tape words that the operand multiplexer reads when the instruction
resolves them (R68, R80), in the order of R156, and a jump that is not taken never reads its target word (R120). -/

namespace Sys2Proof

/-- A parameter mode (R62): mode digit 0 is Position, 1 is Immediate, any other value is not a mode and faults
`InvalidMode` only when a value operand consumes it (R82). -/
inductive Mode where
  | position
  | immediate
  /-- A mode digit that is neither 0 nor 1. -/
  | other (digit : Int)
  deriving DecidableEq, Repr

/-- The decoder's three mode outputs (R62, R63). -/
structure Modes where
  mode1 : Mode
  mode2 : Mode
  mode3 : Mode
  deriving DecidableEq, Repr

/-- The nine instructions (R66), one constructor per row of the opcode table, each with the three mode outputs, whether or
not it consults them. -/
inductive Instr where
  /-- ADD, opcode 1 (R100). -/
  | add (m : Modes)
  /-- MUL, opcode 2 (R101). -/
  | mul (m : Modes)
  /-- IN, opcode 3 (R110); `in` is a keyword of Lean. -/
  | inp (m : Modes)
  /-- OUT, opcode 4 (R111). -/
  | out (m : Modes)
  /-- JT, opcode 5 (R120). -/
  | jt (m : Modes)
  /-- JF, opcode 6 (R121). -/
  | jf (m : Modes)
  /-- LT, opcode 7 (R130). -/
  | lt (m : Modes)
  /-- EQ, opcode 8 (R131). -/
  | eq (m : Modes)
  /-- HALT, opcode 99 (R140). -/
  | halt (m : Modes)
  deriving DecidableEq, Repr

/-- The four formats (R65). -/
inductive Format where
  | f0
  | f1
  | f2
  | f3
  deriving DecidableEq, Repr

end Sys2Proof
end

