-- ==== Sys2Proof/Machine/State.lean ====
section
/-! DEFINITION. The architectural state (`10_state.md` rule R20) as plain data, and the state after reset. -/

namespace Sys2Proof.Machine

/-- The run status (R24). -/
inductive Status where
  | running
  | halted
  | faulted
  deriving DecidableEq, Repr

/-- `FAULT_KIND` (R25); its codes are `FaultKind.code` (Machine/HostPort.lean). -/
inductive FaultKind where
  /-- No fault has occurred. -/
  | none
  /-- R170. -/
  | invalidAddress
  /-- R171. -/
  | unknownOpcode
  /-- R172. -/
  | invalidMode
  /-- R173. -/
  | inputExhausted
  /-- R174, only with `OVERFLOW_MODE = Fault`. -/
  | arithmeticOverflow
  deriving DecidableEq, Repr

/-- `FAULT_ACCESS` (R25): which access raised an `InvalidAddress` fault. -/
inductive FaultAccess where
  /-- Not an address fault. -/
  | none
  /-- Reading the instruction word at `PC`. -/
  | fetch
  /-- Reading a raw operand word at `PC + k`. -/
  | arg
  /-- Dereferencing a Position operand, or OUT's operand. -/
  | read
  /-- Writing a destination. -/
  | write
  /-- A jump target. -/
  | jump
  deriving DecidableEq, Repr

/-- The tape (R40): `size` is `N`, and `cells` lists the words that are not 0, by index.
The canonical form is `Memory.wf` (Machine/Ops.lean): indices strictly rising and below `size`, no listed word 0.
An unlisted index below `size` holds 0, so every sequence of `N` words has one such form (`Memory.ofWords`, log entry 5). -/
structure Memory where
  size : Nat
  cells : List (Nat × Word)
  deriving DecidableEq, Repr

/-- The arguments of `raise Fault(kind, access, value)` (R12, R176). -/
structure FaultRequest where
  kind : FaultKind
  access : FaultAccess
  value : Int
  deriving DecidableEq, Repr

/-- The architectural state (R20), with the parameters of the run (R7) beside it. -/
structure State where
  /-- `W`, `OVERFLOW_MODE`, `INPUT`: configuration, written by no step (R20; log entry 1). -/
  cfg : Config
  /-- `TAPE[0..N-1]` (R40). -/
  tape : Memory
  /-- `PC`, the tape index of the next instruction word (R22); never negative (R23). -/
  pc : Nat
  /-- `IN_CUR`, the index of the next unread input word (R27). -/
  inCur : Nat
  /-- `OUT`, the output sequence, oldest first (R28). -/
  out : List Word
  /-- `OUT_CUR`, the output cursor (R28). -/
  outCur : Nat
  /-- `STATUS` (R24). -/
  status : Status
  /-- `FAULT_KIND` (R25). -/
  faultKind : FaultKind
  /-- `FAULT_ACCESS` (R25). -/
  faultAccess : FaultAccess
  /-- `FAULT_PC` (R25). -/
  faultPc : Nat
  /-- `FAULT_WORD` (R25). -/
  faultWord : Int
  /-- `FAULT_VALUE` (R25). -/
  faultValue : Int
  deriving DecidableEq, Repr

/-- The reasons a step stops without a next state: there is none.
Every fault of the spec (R170 to R175) has an entry the spec describes (R176), so it is a NEXT state with `STATUS = Faulted`
and the fault record written; a step request in a terminal status is a next state too (R157; log entry 6).
Safe: nothing is hidden behind a stop. -/
inductive Fault where
  deriving DecidableEq, Repr

/-- The reasons an instruction is refused. -/
inductive Refusal where
  /-- Raised only by an arm of `exec` whose instruction has no meaning yet; safe, since it stops. No arm raises it now. -/
  | notModelled (mnemonic : String)
  deriving DecidableEq, Repr

/-- The state after reset (R35, R190): `construct` of the empty tape and the empty input at the parameters of
`defaultConfig`.
Every register is at the value R190 gives it; the tape and the input are `construct`'s arguments, and no program is put
into them (log entries 2 and 3). -/
def State.reset : State where
  cfg := defaultConfig
  tape := { size := 0, cells := [] }
  pc := 0
  inCur := 0
  out := []
  outCur := 0
  status := .running
  faultKind := .none
  faultAccess := .none
  faultPc := 0
  faultWord := 0
  faultValue := 0

end Sys2Proof.Machine
end

