-- ==== Sys2Proof/Machine/Width.lean ====
section
/-! DEFINITION. The word range of rule R9 at a width `W`, and words on a wider host bus (R11, R160). -/

namespace Sys2Proof.Machine

/-- `2^(W-1)` as an integer. -/
def halfRange (W : Nat) : Int := ((2 ^ (W - 1) : Nat) : Int)

/-- `WMIN = -2^(W-1)` (R9). -/
def wmin (W : Nat) : Int := -halfRange W

/-- `WMAX = 2^(W-1) - 1` (R9). -/
def wmax (W : Nat) : Int := halfRange W - 1

/-- `fits(v)` (R9). -/
abbrev Fits (W : Nat) (v : Int) : Prop := wmin W ≤ v ∧ v ≤ wmax W

/-- `wrap(v)` (R9): the word congruent to `v` modulo `2^W`. -/
def wrap (W : Nat) (v : Int) : Int := (v + halfRange W) % (2 * halfRange W) - halfRange W

/-- `sext_W(v)` on a host bus of `n >= W` bits (R11, R160). -/
def toBus (n : Nat) (v : Int) : BitVec n := BitVec.ofInt n v

/-- A word taken from a host bus of `n` bits, `none` where its value is no word of width `W`: `construct` refuses it
(R160). -/
def fromBus (W : Nat) {n : Nat} (b : BitVec n) : Option Int :=
  if Fits W b.toInt then some b.toInt else none

end Sys2Proof.Machine
end

