-- ==== Sys2Proof/Machine/Ops.lean ====
section
/-! DEFINITION. The primitives of `00_scope.md` rule R12 over the tape and the registers, fault entry (R176) and commit
(R155). There is no return from a fault (R178), so no operation for one. -/

namespace Sys2Proof.Machine

/-- What a tape index below `N` that is not listed holds. -/
def Memory.unlisted : Int := 0

/-- The word listed at an index. -/
def lookupCell : List (Nat × Word) → Nat → Int
  | [], _ => Memory.unlisted
  | c :: cs, a => if c.1 = a then c.2 else lookupCell cs a

/-- Adds a cell in index order. -/
def insertCell (a : Nat) (v : Int) : List (Nat × Word) → List (Nat × Word)
  | [] => [(a, v)]
  | c :: cs => if a < c.1 then (a, v) :: c :: cs else c :: insertCell a v cs

/-- Removes an index from the list. -/
def eraseCell (a : Nat) : List (Nat × Word) → List (Nat × Word)
  | [] => []
  | c :: cs => if c.1 = a then eraseCell a cs else c :: eraseCell a cs

/-- `TAPE[a]`. -/
def Memory.read (m : Memory) (a : Nat) : Int := lookupCell m.cells a

/-- `TAPE[a] <- v`. -/
def Memory.write (m : Memory) (a : Nat) (v : Int) : Memory :=
  { m with cells := if v = Memory.unlisted then eraseCell a m.cells else insertCell a v (eraseCell a m.cells) }

/-- The canonical form of the tape. -/
abbrev Memory.wf (m : Memory) : Prop :=
  m.cells.Pairwise (fun c d => c.1 < d.1) ∧ ∀ c ∈ m.cells, c.1 < m.size ∧ c.2 ≠ Memory.unlisted

/-- The cells of a sequence of words that starts at an index. -/
def cellsFrom (i : Nat) : List Word → List (Nat × Word)
  | [] => []
  | v :: vs => if v = Memory.unlisted then cellsFrom (i + 1) vs else (i, v) :: cellsFrom (i + 1) vs

/-- The tape that holds a sequence of words from index 0 on (R40). -/
def Memory.ofWords (ws : List Word) : Memory := { size := ws.length, cells := cellsFrom 0 ws }

/-- The words of the tape in index order (R40). -/
def Memory.toWords (m : Memory) : List Word := (List.range m.size).map m.read

/-- An index outside `[0, N)` (R41, R42). -/
abbrev OutOfTape (s : State) (a : Int) : Prop := a < 0 ∨ a ≥ (s.tape.size : Int)

/-- `MemRead(a, 1)` with an access tag (R41). -/
def memRead (acc : FaultAccess) (s : State) (a : Int) : Except FaultRequest Int :=
  if OutOfTape s a then .error ⟨.invalidAddress, acc, a⟩ else .ok (s.tape.read a.toNat)

/-- `MemWrite(a, 1, v)` (R42). -/
def memWrite (s : State) (a : Int) (v : Int) : Except FaultRequest State :=
  if OutOfTape s a then .error ⟨.invalidAddress, .write, a⟩
  else .ok { s with tape := s.tape.write a.toNat v }

/-- The input check and `InRead()` (R49, R110). -/
def inRead (s : State) : Except FaultRequest Int :=
  match s.cfg.input[s.inCur]? with
  | some v => .ok v
  | none => .error ⟨.inputExhausted, .none, (s.inCur : Int)⟩

/-- `IN_CUR <- IN_CUR + 1` (R27). -/
def State.consumeInput (s : State) : State := { s with inCur := s.inCur + 1 }

/-- `OutAppend(v)` (R28). -/
def State.outAppend (s : State) (v : Int) : State :=
  { s with out := s.out ++ [v], outCur := s.outCur + 1 }

/-- `PC <- PC + L` (R13, R22). -/
def State.advance (s : State) (L : Nat) : State := { s with pc := s.pc + L }

/-- `pc <- target` (R12, R22). -/
def State.setPc (s : State) (target : Nat) : State := { s with pc := target }

/-- The target range check and the jump (R122). -/
def State.jumpTo (s : State) (t : Int) : Except FaultRequest State :=
  if OutOfTape s t then .error ⟨.invalidAddress, .jump, t⟩ else .ok (s.setPc t.toNat)

/-- `STATUS <- Halted` (R140). -/
def State.halt (s : State) : State := { s with status := .halted }

/-- Fault entry (R176): the status, the fault record, and nothing else; `FAULT_WORD` is the instruction word, 0 when the
fetch itself faulted (R25). -/
def State.takeFault (s : State) (f : FaultRequest) : State :=
  { s with
    status := .faulted
    faultKind := f.kind
    faultAccess := f.access
    faultPc := s.pc
    faultWord := if f.access = .fetch then 0 else s.tape.read s.pc
    faultValue := f.value }

/-- Commit (R155): a step that raised no fault commits all its writes; one that raised a fault discards them and does only
fault entry, on the state before the step. -/
def commit (s : State) (r : Except FaultRequest State) : Host.Outcome State Fault Refusal :=
  match r with
  | .ok t => .next t
  | .error f => .next (s.takeFault f)

end Sys2Proof.Machine
end

