-- ==== Sys2Proof/Machine/Flags.lean ====
section
/-! DEFINITION. The machine has no flags (R30). This file holds what stands in their place: the overflow decision of ADD and
MUL (R102), the result words of LT and EQ (R130, R131) and the conditions of JT and JF (R120, R121). -/

namespace Sys2Proof.Machine

/-- The overflow decision on an exact result (R102): a word is the result; any other value faults or wraps. -/
def narrow (c : Config) (r : Int) : Except FaultRequest Int :=
  if Fits c.wordBits r then .ok r
  else
    match c.overflowMode with
    | .fault => .error ⟨.arithmeticOverflow, .none, 0⟩
    | .wrap => .ok (wrap c.wordBits r)

/-- `1 if a < b else 0`, signed (R130). -/
def lessWord (a b : Int) : Int := if a < b then 1 else 0

/-- `1 if a == b else 0` (R131). -/
def equalWord (a b : Int) : Int := if a = b then 1 else 0

/-- JT jumps on every word but 0 (R120). -/
def jumpsIfTrue (c : Int) : Bool := decide (c ≠ 0)

/-- JF jumps on 0 only (R121). -/
def jumpsIfFalse (c : Int) : Bool := decide (c = 0)

end Sys2Proof.Machine
end

