-- ==== Sys2Proof/WellFormed.lean ====
section
/-! DEFINITION. Which decoded instructions an instruction word can carry: a mode digit is one decimal digit (R60, R62), and
the digits 0 and 1 have names of their own, so that each instruction has one term. -/

namespace Sys2Proof

/-- Whether a decimal digit of a non-negative word can give the mode: 0, 1, or one of 2 to 9 (R62). -/
def Mode.fromDigit : Mode → Bool
  | .position => true
  | .immediate => true
  | .other d => decide (2 ≤ d ∧ d ≤ 9)

/-- A mode that a decimal digit of a non-negative word can give. -/
abbrev Mode.WellFormed (m : Mode) : Prop := m.fromDigit = true

/-- All three mode outputs are digits. -/
abbrev Modes.WellFormed (m : Modes) : Prop :=
  m.mode1.WellFormed ∧ m.mode2.WellFormed ∧ m.mode3.WellFormed

/-- The mode outputs of an instruction (R152). -/
def Instr.modes : Instr → Modes
  | .add m => m
  | .mul m => m
  | .inp m => m
  | .out m => m
  | .jt m => m
  | .jf m => m
  | .lt m => m
  | .eq m => m
  | .halt m => m

/-- An instruction that some instruction word encodes. -/
abbrev Instr.WellFormed (i : Instr) : Prop := i.modes.WellFormed

end Sys2Proof
end

