-- ==== Sys2Proof/Decode.lean ====
section
/-! DEFINITION. The parameter-mode decoder and the opcode table (`30_encoding.md`), the encoder, and the spec's assembler
syntax (R71). -/

namespace Sys2Proof

/-- `digit(w, k) = (w tdiv 10^k) trem 10` (R10). -/
def digit (w : Int) (k : Nat) : Int := (w.tdiv ((10 ^ k : Nat) : Int)).tmod 10

/-- `opcode = word trem 100` (R61). -/
def opcodeOf (w : Int) : Int := w.tmod 100

/-- The mode a mode digit names (R62). -/
def Mode.ofDigit (d : Int) : Mode :=
  if d = 0 then .position else if d = 1 then .immediate else .other d

/-- The digit of a mode; the value an `InvalidMode` fault records (R25). -/
def Mode.digit : Mode → Int
  | .position => 0
  | .immediate => 1
  | .other d => d

/-- `mode(n) = digit(word, n + 1)` for `n` in 1, 2, 3 (R62). -/
def modeOf (w : Int) (n : Nat) : Mode := Mode.ofDigit (digit w (n + 1))

/-- The decoder's three mode outputs (R63). -/
def modesOf (w : Int) : Modes := ⟨modeOf w 1, modeOf w 2, modeOf w 3⟩

/-- The number of words of a format (R65). -/
def Format.length : Format → Nat
  | .f0 => 1
  | .f1 => 2
  | .f2 => 3
  | .f3 => 4

/-- One row of the opcode map (R66). -/
structure OpcodeRow where
  opcode : Int
  mnemonic : String
  format : Format
  make : Modes → Instr

/-- The opcode map, as data (R66, R153). -/
def opcodeTable : List OpcodeRow :=
  [⟨1, "ADD", .f3, .add⟩,
   ⟨2, "MUL", .f3, .mul⟩,
   ⟨3, "IN", .f1, .inp⟩,
   ⟨4, "OUT", .f1, .out⟩,
   ⟨5, "JT", .f2, .jt⟩,
   ⟨6, "JF", .f2, .jf⟩,
   ⟨7, "LT", .f3, .lt⟩,
   ⟨8, "EQ", .f3, .eq⟩,
   ⟨99, "HALT", .f0, .halt⟩]

/-- The table lookup of the DISPATCH phase (R153); `none` is the unknown fallthrough. -/
def lookup (opcode : Int) (m : Modes) : Option Instr :=
  (opcodeTable.find? fun r => decide (r.opcode = opcode)).map fun r => r.make m

/-- Why a word is no instruction. -/
inductive DecodeError where
  /-- The decoded opcode has no row (R69, R171). -/
  | unknownOpcode (opcode : Int)
  deriving DecidableEq, Repr

/-- The decoder (R61, R62, R66): total, every word gives one instruction or `unknownOpcode` (R70). -/
def decode (w : Int) : Except DecodeError Instr :=
  match lookup (opcodeOf w) (modesOf w) with
  | some i => .ok i
  | none => .error (.unknownOpcode (opcodeOf w))

/-- The opcode of an instruction (R66). -/
def Instr.opcode : Instr → Int
  | .add _ => 1
  | .mul _ => 2
  | .inp _ => 3
  | .out _ => 4
  | .jt _ => 5
  | .jf _ => 6
  | .lt _ => 7
  | .eq _ => 8
  | .halt _ => 99

/-- The format of an instruction (R65, R66). -/
def Instr.format : Instr → Format
  | .add _ => .f3
  | .mul _ => .f3
  | .inp _ => .f1
  | .out _ => .f1
  | .jt _ => .f2
  | .jf _ => .f2
  | .lt _ => .f3
  | .eq _ => .f3
  | .halt _ => .f0

/-- The length of an instruction in words (R65, R67). -/
def Instr.length (i : Instr) : Nat := i.format.length

/-- The instruction word of an instruction: `opcode + 100 * m1 + 1000 * m2 + 10000 * m3` (R71), the digits `d0` to `d4` of
R60. -/
def encode (i : Instr) : Int :=
  i.opcode + 100 * i.modes.mode1.digit + 1000 * i.modes.mode2.digit + 10000 * i.modes.mode3.digit

/-- An instruction with its raw operand words, in tape order (R60, R65). -/
def encodeWith (i : Instr) (operands : List Word) : List Word := encode i :: operands

/-- A value operand of the assembler syntax (R71): `n` or `#n`. -/
inductive AsmValue where
  | pos (n : Int)
  | imm (n : Int)
  deriving DecidableEq, Repr

/-- The mode of a value operand as written (R71). -/
def AsmValue.mode : AsmValue → Mode
  | .pos _ => .position
  | .imm _ => .immediate

/-- The raw operand word of a value operand as written (R71). -/
def AsmValue.raw : AsmValue → Int
  | .pos n => n
  | .imm n => n

/-- A line of the spec's assembler (R71). A destination and OUT's operand are written `n` only, so they are plain words
here: `#n` cannot be written. -/
inductive Asm where
  | add (a b : AsmValue) (d : Int)
  | mul (a b : AsmValue) (d : Int)
  | inp (d : Int)
  | out (s : Int)
  | jt (c t : AsmValue)
  | jf (c t : AsmValue)
  | lt (a b : AsmValue) (d : Int)
  | eq (a b : AsmValue) (d : Int)
  | halt
  | word (n : Int)
  deriving DecidableEq, Repr

/-- The tape words a line assembles to (R71); the mode digit of a destination, of OUT's operand and of an absent operand
is 0. -/
def Asm.words : Asm → List Word
  | .add a b d => encodeWith (.add ⟨a.mode, b.mode, .position⟩) [a.raw, b.raw, d]
  | .mul a b d => encodeWith (.mul ⟨a.mode, b.mode, .position⟩) [a.raw, b.raw, d]
  | .inp d => encodeWith (.inp ⟨.position, .position, .position⟩) [d]
  | .out s => encodeWith (.out ⟨.position, .position, .position⟩) [s]
  | .jt c t => encodeWith (.jt ⟨c.mode, t.mode, .position⟩) [c.raw, t.raw]
  | .jf c t => encodeWith (.jf ⟨c.mode, t.mode, .position⟩) [c.raw, t.raw]
  | .lt a b d => encodeWith (.lt ⟨a.mode, b.mode, .position⟩) [a.raw, b.raw, d]
  | .eq a b d => encodeWith (.eq ⟨a.mode, b.mode, .position⟩) [a.raw, b.raw, d]
  | .halt => encodeWith (.halt ⟨.position, .position, .position⟩) []
  | .word n => [n]

/-- The width of the words in which a table row's bits are numbered: the spec's table numbers no bits and `W` is open, so
it is the width of `State.reset` (log entry 4). -/
def tableWordBits : Nat := Machine.defaultConfig.wordBits

/-- Word `k` of an instruction whose bits are `w`: the bits from `k * tableWordBits` on, as a two's-complement value, every
bit at or above `nbits` being 0. -/
def tableWord (nbits w k : Nat) : Int :=
  Machine.wrap tableWordBits (((w % 2 ^ nbits) / 2 ^ (tableWordBits * k) : Nat) : Int)

/-- The four words of an instruction whose bits are `w`: the longest instruction has four (R65). -/
def tableWords (nbits w : Nat) : List Word :=
  [tableWord nbits w 0, tableWord nbits w 1, tableWord nbits w 2, tableWord nbits w 3]

/-- The instruction the decoder reads from a table row's bits: it sees the first word only (R61, R67). -/
def decodeTableWord (nbits w : Nat) : Option Instr := (decode (tableWord nbits w 0)).toOption

end Sys2Proof
end

