-- ==== Sys2Proof/Machine/Operands.lean ====
section
/-! DEFINITION. The operand multiplexer (`40_operands.md`). -/

namespace Sys2Proof.Machine

/-- `ArgRead(k)` (R80): the raw word at `PC + k`. -/
def argRead (s : State) (k : Nat) : Except FaultRequest Int := memRead .arg s ((s.pc + k : Nat) : Int)

/-- `ResolveValue(k)` at mode `m` (R81): the mode check, then the raw read, then for Position the dereference. -/
def resolveValue (s : State) (k : Nat) (m : Mode) : Except FaultRequest Int :=
  match m with
  | .other d => .error ⟨.invalidMode, .none, d⟩
  | .immediate => argRead s k
  | .position => do
    let raw ← argRead s k
    memRead .read s raw

/-- `ResolveAddress(k)` (R83): the raw word, with no mode check and no range check of its value. -/
def resolveAddress (s : State) (k : Nat) : Except FaultRequest Int := argRead s k

end Sys2Proof.Machine
end

