-- ==== Sys2Proof/Machine/Shapes.lean ====
section
/-! DEFINITION. The two shapes of pseudocode that several instructions share: two values to a destination (ADD, MUL, LT,
EQ) and a conditional jump (JT, JF). The order of the lines is the phase order of R156.
Each gives the writes of the step or its first fault; the instruction commits that (R155). -/

namespace Sys2Proof.Machine

/-- Format F3 (R100, R101, R130, R131): operands 1 and 2 by value, operand 3 an address, the result `f a b` with its own
check, the write, the advance by 4. -/
def storeBinary (m : Modes) (s : State) (f : Int → Int → Except FaultRequest Int) : Except FaultRequest State := do
  let a ← resolveValue s 1 m.mode1
  let b ← resolveValue s 2 m.mode2
  let d ← resolveAddress s 3
  let r ← f a b
  let t ← memWrite s d r
  pure (t.advance 4)

/-- Format F2 (R120, R121): the condition by value; when it jumps, the target by value and its range check; when it does
not, the advance by 3, with the target word unread. -/
def jumpWhen (jumps : Int → Bool) (m : Modes) (s : State) : Except FaultRequest State := do
  let c ← resolveValue s 1 m.mode1
  if jumps c then
    let t ← resolveValue s 2 m.mode2
    s.jumpTo t
  else
    pure (s.advance 3)

end Sys2Proof.Machine
end

