-- ==== Sys2Proof/Machine/Arithmetic.lean ====
section
/-! DEFINITION. ADD and MUL (`41_arithmetic.md`). -/

namespace Sys2Proof.Machine

/-- ADD (R100): the exact sum, narrowed by R102. -/
def execAdd (m : Modes) (s : State) : Host.Outcome State Fault Refusal :=
  commit s (storeBinary m s fun a b => narrow s.cfg (a + b))

/-- MUL (R101): the exact product, narrowed by R102. -/
def execMul (m : Modes) (s : State) : Host.Outcome State Fault Refusal :=
  commit s (storeBinary m s fun a b => narrow s.cfg (a * b))

end Sys2Proof.Machine
end

