-- ==== Sys2Proof/Machine/Compare.lean ====
section
/-! DEFINITION. LT and EQ (`44_compare.md`). -/

namespace Sys2Proof.Machine

/-- LT, less-than (R130); no overflow is possible. -/
def execLt (m : Modes) (s : State) : Host.Outcome State Fault Refusal :=
  commit s (storeBinary m s fun a b => .ok (lessWord a b))

/-- EQ, equals (R131). -/
def execEq (m : Modes) (s : State) : Host.Outcome State Fault Refusal :=
  commit s (storeBinary m s fun a b => .ok (equalWord a b))

end Sys2Proof.Machine
end

