-- ==== Sys2Proof/Machine/Halt.lean ====
section
/-! DEFINITION. HALT (`45_halt.md`). -/

namespace Sys2Proof.Machine

/-- HALT (R140): `STATUS <- Halted`; `PC` keeps the index of the HALT word, and no mode digit is consulted. -/
def execHalt (_m : Modes) (s : State) : Host.Outcome State Fault Refusal := commit s (.ok s.halt)

end Sys2Proof.Machine
end

