-- ==== Sys2Proof/Machine/InputOutput.lean ====
section
/-! DEFINITION. IN and OUT (`42_io.md`). Neither consults a mode digit (R66). -/

namespace Sys2Proof.Machine

/-- IN (R110): the address, the input check, the write, then `IN_CUR` and `PC`. -/
def execIn (_m : Modes) (s : State) : Host.Outcome State Fault Refusal :=
  commit s do
    let d ← resolveAddress s 1
    let v ← inRead s
    let t ← memWrite s d v
    pure (t.consumeInput.advance 2)

/-- OUT (R111): its operand is always a Position address, whatever its mode digit (R112). -/
def execOut (_m : Modes) (s : State) : Host.Outcome State Fault Refusal :=
  commit s do
    let a ← resolveAddress s 1
    let v ← memRead .read s a
    pure ((s.outAppend v).advance 2)

end Sys2Proof.Machine
end

