-- ==== Sys2Proof/Machine/Jumps.lean ====
section
/-! DEFINITION. JT and JF (`43_jumps.md`). -/

namespace Sys2Proof.Machine

/-- JT, jump-if-true (R120). -/
def execJt (m : Modes) (s : State) : Host.Outcome State Fault Refusal :=
  commit s (jumpWhen jumpsIfTrue m s)

/-- JF, jump-if-false (R121). -/
def execJf (m : Modes) (s : State) : Host.Outcome State Fault Refusal :=
  commit s (jumpWhen jumpsIfFalse m s)

end Sys2Proof.Machine
end

