-- ==== Sys2Proof/Machine/Dispatch.lean ====
section
/-! DEFINITION. The handler of each instruction (R154), one arm per row of the opcode table. -/

namespace Sys2Proof.Machine

/-- Runs the meaning of a decoded instruction (R154). -/
def exec (i : Instr) (s : State) : Host.Outcome State Fault Refusal :=
  match i with
  | .add m => Sys2Proof.Machine.execAdd m s
  | .mul m => Sys2Proof.Machine.execMul m s
  | .inp m => Sys2Proof.Machine.execIn m s
  | .out m => Sys2Proof.Machine.execOut m s
  | .jt m => Sys2Proof.Machine.execJt m s
  | .jf m => Sys2Proof.Machine.execJf m s
  | .lt m => Sys2Proof.Machine.execLt m s
  | .eq m => Sys2Proof.Machine.execEq m s
  | .halt m => Sys2Proof.Machine.execHalt m s

end Sys2Proof.Machine
end

