-- ==== Sys2Proof/Machine/Loop.lean ====
section
/-! DEFINITION. Fetch, decode and dispatch of one step (`46_execution_loop.md` rules R150 to R153), and placing an
instruction on the tape. -/

namespace Sys2Proof.Machine

/-- Fetch (R151): the instruction word at `PC`. -/
def fetch (s : State) : Except FaultRequest Int := memRead .fetch s (s.pc : Int)

/-- Decode and dispatch (R152, R153): the instruction of a word, or the `UnknownOpcode` fault. -/
def dispatch (w : Int) : Except FaultRequest Instr :=
  match decode w with
  | .ok i => .ok i
  | .error (.unknownOpcode op) => .error ⟨.unknownOpcode, .none, op⟩

/-- The instruction of the next step (R151 to R153). -/
def fetchInstr (s : State) : Except FaultRequest Instr := do
  let w ← fetch s
  dispatch w

/-- One step (R150) with the given handlers: only while `STATUS = Running`; in a terminal status a step request changes no
state (R157). -/
def stepWith (handler : Instr → State → Host.Outcome State Fault Refusal) (s : State) :
    Host.Outcome State Fault Refusal :=
  match s.status with
  | .running =>
    match fetchInstr s with
    | .ok i => handler i s
    | .error f => commit s (.error f)
  | .halted => .next s
  | .faulted => .next s

/-- Writes words from an index on. -/
def Memory.writeFrom (m : Memory) (a : Nat) : List Word → Memory
  | [] => m
  | v :: vs => (m.write a v).writeFrom (a + 1) vs

/-- The state in which the next step runs the instruction whose words are given: they stand from `PC` on, the tape is long
enough to hold them, and the status is `Running`; the stand-in for `construct` with such a tape (log entry 7). -/
def State.placeAtPc (s : State) (ws : List Word) : State :=
  { s with
    tape := ({ s.tape with size := max s.tape.size (s.pc + ws.length) } : Memory).writeFrom s.pc ws
    status := .running }

end Sys2Proof.Machine
end

