-- ==== Sys2Proof/Machine/Step.lean ====
section
/-! DEFINITION. The step (R150) and the placing of one instruction for it. -/

namespace Sys2Proof.Machine

/-- One step request (R150, R157, R159). -/
def step (s : State) : Host.Outcome State Fault Refusal := stepWith exec s

/-- The state in which the next step runs the instruction whose bits are `w` (log entries 4 and 7). -/
def State.withFetchWord (s : State) (nbits w : Nat) : State := s.placeAtPc (tableWords nbits w)

end Sys2Proof.Machine
end

