-- ==== Sys2Proof/Machine/Phases.lean ====
section
/-! DEFINITION. The dispatch FSM inside a step (`46_execution_loop.md` rule R156), phase by phase.
The phases and the latches are not architectural state: they live inside one step only (R32), so `State` holds none of
them.
This is a second reading of a step; the statement `PhasesComputeTheStep` says that it agrees with `step`. -/

namespace Sys2Proof.Machine

/-- The phases of R156. -/
inductive Phase where
  | fetch
  | decode
  | dispatch
  | op1
  | op2
  | op3
  | check
  | mem
  | commit
  deriving DecidableEq, Repr

/-- What the phases of one step pass on. -/
structure Latches where
  /-- The instruction word, from FETCH. -/
  word : Int
  /-- The decoder's outputs, from DECODE. -/
  opcode : Int
  modes : Modes
  /-- The selected row, from DISPATCH; no phase before it reads this. -/
  instr : Instr
  /-- The resolved values, from OP1 and OP2. -/
  value1 : Int
  value2 : Int
  /-- The address operand, from OP1 (IN, OUT) or OP3. -/
  address : Int
  /-- The word to write, from CHECK (ADD, MUL, IN), or the word OUT read, from MEM. -/
  result : Int
  /-- The tape after the destination write, from MEM. -/
  tape : Memory
  deriving DecidableEq, Repr

/-- The latches before FETCH; every field is written before a phase reads it. -/
def Latches.start (s : State) : Latches where
  word := 0
  opcode := 0
  modes := ⟨.position, .position, .position⟩
  instr := .halt ⟨.position, .position, .position⟩
  value1 := 0
  value2 := 0
  address := 0
  result := 0
  tape := s.tape

/-- How a phase ends. -/
inductive PhaseResult where
  | goto (p : Phase) (l : Latches)
  | fault (f : FaultRequest)
  | done (t : State)
  deriving DecidableEq, Repr

/-- Whether the instruction is a jump that its condition takes. -/
def jumpTaken (i : Instr) (c : Int) : Bool :=
  match i with
  | .jt _ => jumpsIfTrue c
  | .jf _ => jumpsIfFalse c
  | .add _ => false
  | .mul _ => false
  | .inp _ => false
  | .out _ => false
  | .lt _ => false
  | .eq _ => false
  | .halt _ => false

/-- The table of R156: the phase that follows a phase, for an instruction and, for a jump, whether it is taken. -/
def nextPhase (i : Instr) (taken : Bool) : Phase → Phase
  | .fetch => .decode
  | .decode => .dispatch
  | .dispatch =>
    match i with
    | .halt _ => .commit
    | .add _ | .mul _ | .inp _ | .out _ | .jt _ | .jf _ | .lt _ | .eq _ => .op1
  | .op1 =>
    match i with
    | .inp _ => .check
    | .out _ => .mem
    | .jt _ | .jf _ => if taken then .op2 else .commit
    | .add _ | .mul _ | .lt _ | .eq _ => .op2
    | .halt _ => .commit
  | .op2 =>
    match i with
    | .jt _ | .jf _ => .check
    | .add _ | .mul _ | .lt _ | .eq _ | .inp _ | .out _ | .halt _ => .op3
  | .op3 =>
    match i with
    | .add _ | .mul _ => .check
    | .lt _ | .eq _ | .inp _ | .out _ | .jt _ | .jf _ | .halt _ => .mem
  | .check =>
    match i with
    | .jt _ | .jf _ => .commit
    | .add _ | .mul _ | .inp _ | .out _ | .lt _ | .eq _ | .halt _ => .mem
  | .mem => .commit
  | .commit => .commit

/-- Goes on with the latches a phase computed, or ends the step with its fault. -/
def PhaseResult.ofExcept (r : Except FaultRequest Latches) (next : Latches → Phase) : PhaseResult :=
  match r with
  | .ok l => .goto (next l) l
  | .error f => .fault f

/-- OP1 (R156). -/
def phaseOp1 (s : State) (l : Latches) : Except FaultRequest Latches :=
  match l.instr with
  | .inp _ | .out _ => do
    let d ← resolveAddress s 1
    pure { l with address := d }
  | .add _ | .mul _ | .lt _ | .eq _ | .jt _ | .jf _ | .halt _ => do
    let v ← resolveValue s 1 l.modes.mode1
    pure { l with value1 := v }

/-- CHECK (R156): the overflow check, the input check or the target range check. -/
def phaseCheck (s : State) (l : Latches) : Except FaultRequest Latches :=
  match l.instr with
  | .add _ => do
    let r ← narrow s.cfg (l.value1 + l.value2)
    pure { l with result := r }
  | .mul _ => do
    let r ← narrow s.cfg (l.value1 * l.value2)
    pure { l with result := r }
  | .inp _ => do
    let v ← inRead s
    pure { l with result := v }
  | .jt _ | .jf _ => do
    let _ ← s.jumpTo l.value2
    pure l
  | .out _ | .lt _ | .eq _ | .halt _ => pure l

/-- The word a storing instruction writes in MEM. -/
def storedWord (l : Latches) : Int :=
  match l.instr with
  | .lt _ => lessWord l.value1 l.value2
  | .eq _ => equalWord l.value1 l.value2
  | .add _ | .mul _ | .inp _ | .out _ | .jt _ | .jf _ | .halt _ => l.result

/-- MEM (R156): the destination write, or OUT's read. -/
def phaseMem (s : State) (l : Latches) : Except FaultRequest Latches :=
  match l.instr with
  | .out _ => do
    let v ← memRead .read s l.address
    pure { l with result := v }
  | .add _ | .mul _ | .inp _ | .lt _ | .eq _ | .jt _ | .jf _ | .halt _ => do
    let t ← memWrite s l.address (storedWord l)
    pure { l with tape := t.tape }

/-- COMMIT (R155): all the writes of the step, together. -/
def phaseCommit (s : State) (l : Latches) : State :=
  match l.instr with
  | .add _ | .mul _ | .lt _ | .eq _ => { s with tape := l.tape, pc := s.pc + 4 }
  | .inp _ => { s with tape := l.tape, inCur := s.inCur + 1, pc := s.pc + 2 }
  | .out _ => { s with out := s.out ++ [l.result], outCur := s.outCur + 1, pc := s.pc + 2 }
  | .jt _ | .jf _ => { s with pc := if jumpTaken l.instr l.value1 then l.value2.toNat else s.pc + 3 }
  | .halt _ => { s with status := .halted }

/-- One phase. -/
def phaseStep (s : State) (p : Phase) (l : Latches) : PhaseResult :=
  match p with
  | .fetch =>
    .ofExcept (do let w ← fetch s; pure { l with word := w }) fun _ => .decode
  | .decode => .goto .dispatch { l with opcode := opcodeOf l.word, modes := modesOf l.word }
  | .dispatch =>
    match lookup l.opcode l.modes with
    | some i => .goto (nextPhase i false .dispatch) { l with instr := i }
    | none => .fault ⟨.unknownOpcode, .none, l.opcode⟩
  | .op1 =>
    .ofExcept (phaseOp1 s l) fun l' => nextPhase l'.instr (jumpTaken l'.instr l'.value1) .op1
  | .op2 =>
    .ofExcept (do let v ← resolveValue s 2 l.modes.mode2; pure { l with value2 := v })
      fun l' => nextPhase l'.instr false .op2
  | .op3 =>
    .ofExcept (do let d ← resolveAddress s 3; pure { l with address := d })
      fun l' => nextPhase l'.instr false .op3
  | .check => .ofExcept (phaseCheck s l) fun l' => nextPhase l'.instr false .check
  | .mem => .ofExcept (phaseMem s l) fun l' => nextPhase l'.instr false .mem
  | .commit => .done (phaseCommit s l)

/-- At most `n` phases; `none` where the step has not ended by then. -/
def phaseLoop (s : State) : Nat → Phase → Latches → Option State
  | 0, _, _ => none
  | n + 1, p, l =>
    match phaseStep s p l with
    | .goto q l' => phaseLoop s n q l'
    | .fault f => some (s.takeFault f)
    | .done t => some t

/-- The phases of one step, from FETCH: no instruction has more than nine (R156). -/
def runPhases (s : State) : Option State := phaseLoop s 9 .fetch (Latches.start s)

end Sys2Proof.Machine
end

