-- ==== Sys2Proof/Machine/HostPort.lean ====
section
/-! DEFINITION. The transaction-level host interface (`46_execution_loop.md` rules R158 to R162): `construct`, `step`,
`run`, read, the end of a run; and the binary codes the host sees (R24, R25). -/

namespace Sys2Proof.Machine

/-- The two-bit code of `STATUS` (R24); `11` is never produced. -/
def Status.code : Status → BitVec 2
  | .running => 0b00#2
  | .halted => 0b01#2
  | .faulted => 0b10#2

/-- The three-bit code of `FAULT_KIND` (R25). -/
def FaultKind.code : FaultKind → BitVec 3
  | .none => 0#3
  | .invalidAddress => 1#3
  | .unknownOpcode => 2#3
  | .invalidMode => 3#3
  | .inputExhausted => 4#3
  | .arithmeticOverflow => 5#3

/-- The three-bit code of `FAULT_ACCESS` (R25). -/
def FaultAccess.code : FaultAccess → BitVec 3
  | .none => 0#3
  | .fetch => 1#3
  | .arg => 2#3
  | .read => 3#3
  | .write => 4#3
  | .jump => 5#3

/-- What the host owes `construct` (R7, R160, R193): an admitted width, words in range, a tape of at most
`2^(W-1) - 4` words and an input of at most `2^(W-1) - 1`. -/
abbrev Constructible (cfg : Config) (tape : List Word) : Prop :=
  16 ≤ cfg.wordBits ∧
  (∀ v ∈ tape, Fits cfg.wordBits v) ∧
  (∀ v ∈ cfg.input, Fits cfg.wordBits v) ∧
  tape.length + 4 ≤ 2 ^ (cfg.wordBits - 1) ∧
  cfg.inputLen + 1 ≤ 2 ^ (cfg.wordBits - 1)

/-- The state `construct(tape, inputs)` builds (R190). -/
def State.initial (cfg : Config) (tape : List Word) : State where
  cfg := cfg
  tape := Memory.ofWords tape
  pc := 0
  inCur := 0
  out := []
  outCur := 0
  status := .running
  faultKind := .none
  faultAccess := .none
  faultPc := 0
  faultWord := 0
  faultValue := 0

/-- `construct(tape, inputs)` (R160, R190), the only reset (R192); `none` where it refuses its arguments (log entry 8). -/
def construct (cfg : Config) (tape : List Word) : Option State :=
  if Constructible cfg tape then some (State.initial cfg tape) else none

/-- The words of a host bus, or `none` where `construct` refuses one of them (R160). -/
def wordsFromBus (W : Nat) {n : Nat} (bs : List (BitVec n)) : Option (List Word) := bs.mapM (fromBus W)

/-- The fault record as one value (R25). -/
structure FaultRecord where
  kind : FaultKind
  access : FaultAccess
  pc : Nat
  word : Int
  value : Int
  deriving DecidableEq, Repr

/-- The fault record of a state (R25). -/
def State.faultRecord (s : State) : FaultRecord :=
  ⟨s.faultKind, s.faultAccess, s.faultPc, s.faultWord, s.faultValue⟩

/-- `step()` (R159): one step request, and the status it returns. -/
def stepRequest (s : State) : Option (State × Status) :=
  match step s with
  | .next t => some (t, t.status)
  | .fault _ => none
  | .refused _ => none

/-- What `run()` returns (R158). -/
structure RunResult where
  outputs : List Word
  finalTape : List Word
  status : Status
  /-- Present when `STATUS = Faulted`. -/
  fault : Option FaultRecord
  deriving DecidableEq, Repr

/-- What `run()` returns at a terminal state (R158). -/
def State.result (s : State) : RunResult where
  outputs := s.out
  finalTape := s.tape.toWords
  status := s.status
  fault := if s.status = .faulted then some s.faultRecord else none

/-- `run()` under a bound on its steps (R158, R159): the state at the end of the run, which the host may go on reading
(R160, R162), and what the call returns; `none` is "no result yet" (R197), never a state of the block. -/
def run : Nat → State → Option (State × RunResult)
  | 0, s => if s.status = .running then none else some (s, s.result)
  | k + 1, s =>
    if s.status = .running then
      match stepRequest s with
      | some (t, _) => run k t
      | none => none
    else some (s, s.result)

/-- What the caller observes of the end of a run (R162). -/
structure EndOfRun where
  outputs : List Word
  outCur : Nat
  finalTape : List Word
  status : Status
  record : FaultRecord
  pc : Nat
  inCur : Nat
  deriving DecidableEq, Repr

/-- The observation of a state that ends a run (R162). -/
def State.endOfRun (s : State) : EndOfRun where
  outputs := s.out
  outCur := s.outCur
  finalTape := s.tape.toWords
  status := s.status
  record := s.faultRecord
  pc := s.pc
  inCur := s.inCur

/-- The registers the host reads by name (R21, R160). -/
inductive HostRegister where
  | pc
  | inCur
  | outCur
  | status
  | faultKind
  | faultAccess
  | faultPc
  | faultWord
  | faultValue
  deriving DecidableEq, Repr

/-- A register as the host reads it between steps and after `run` (R160). -/
def State.readRegister (s : State) : HostRegister → Int
  | .pc => (s.pc : Int)
  | .inCur => (s.inCur : Int)
  | .outCur => (s.outCur : Int)
  | .status => (s.status.code.toNat : Int)
  | .faultKind => (s.faultKind.code.toNat : Int)
  | .faultAccess => (s.faultAccess.code.toNat : Int)
  | .faultPc => (s.faultPc : Int)
  | .faultWord => s.faultWord
  | .faultValue => s.faultValue

/-- `TAPE[i]` as the host reads it between steps and after `run` (R56, R160); `none` outside `[0, N)` (log entry 8). -/
def State.hostTape (s : State) (i : Nat) : Option Int :=
  if i < s.tape.size then some (s.tape.read i) else none

/-- `OUT[i]` as the host reads it between steps and after `run` (R160); `none` past its end (log entry 8). -/
def State.hostOut (s : State) (i : Nat) : Option Int := s.out[i]?

end Sys2Proof.Machine
end

