-- ==== Sys2Proof/Safety.lean ====
section
/-! DEFINITION. The terms the claims use: what an operand is, read from the state alone, and the invariant of a run. -/

namespace Sys2Proof.Machine

/-- An index in `[0, N)` (R47). -/
abbrev InTape (s : State) (a : Int) : Prop := 0 ≤ a ∧ a < (s.tape.size : Int)

/-- The raw word of operand `k` (R80), as the tape holds it. -/
abbrev rawWord (s : State) (k : Nat) : Int := s.tape.read (s.pc + k)

/-- Operand `k`'s raw word lies on the tape. -/
abbrev HasOperand (s : State) (k : Nat) : Prop := s.pc + k < s.tape.size

/-- Operand `k`, at mode `m`, has the value `v` (R81): the raw word under Immediate, the tape word it indexes under
Position. -/
abbrev ValueIs (s : State) (k : Nat) (m : Mode) (v : Int) : Prop :=
  HasOperand s k ∧
  ((m = .immediate ∧ v = rawWord s k) ∨
   (m = .position ∧ InTape s (rawWord s k) ∧ v = s.tape.read (rawWord s k).toNat))

/-- A mode digit that names a mode (R62). -/
abbrev IsMode (m : Mode) : Prop := m = .position ∨ m = .immediate

/-- Whether the instruction consumes the mode of operand 1 (R66, "mode digits consulted"). -/
def consultsMode1 : Instr → Bool
  | .add _ => true
  | .mul _ => true
  | .inp _ => false
  | .out _ => false
  | .jt _ => true
  | .jf _ => true
  | .lt _ => true
  | .eq _ => true
  | .halt _ => false

/-- Whether the instruction consumes the mode of operand 2 (R66), given the value of operand 1: JT and JF do when the jump
is taken. -/
def consultsMode2 (i : Instr) (v1 : Int) : Bool :=
  match i with
  | .add _ => true
  | .mul _ => true
  | .inp _ => false
  | .out _ => false
  | .jt _ => decide (v1 ≠ 0)
  | .jf _ => decide (v1 = 0)
  | .lt _ => true
  | .eq _ => true
  | .halt _ => false

/-- A state with another fault record (R25). -/
abbrev withRecord (s : State) (r : FaultRecord) : State :=
  { s with
    faultKind := r.kind
    faultAccess := r.access
    faultPc := r.pc
    faultWord := r.word
    faultValue := r.value }

/-- The opcodes of the opcode map (R66). -/
def opcodeList : List Int := [1, 2, 3, 4, 5, 6, 7, 8, 99]

/-- The state after the fault `raise Fault(kind, access, value)` in the step that runs the word at `PC` (R176), written
out. -/
abbrev faultedState (s : State) (kind : FaultKind) (access : FaultAccess) (value : Int) : State :=
  { s with
    status := .faulted
    faultKind := kind
    faultAccess := access
    faultPc := s.pc
    faultWord := s.tape.read s.pc
    faultValue := value }

/-- The fault record is as at reset (R26). -/
abbrev FaultRecordZero (s : State) : Prop :=
  s.faultKind = .none ∧ s.faultAccess = .none ∧ s.faultPc = 0 ∧ s.faultWord = 0 ∧ s.faultValue = 0

/-- The parameters are admitted ones (R7). -/
abbrev ConfigOk (s : State) : Prop :=
  16 ≤ s.cfg.wordBits ∧ (∀ v ∈ s.cfg.input, Fits s.cfg.wordBits v) ∧
  s.cfg.inputLen + 1 ≤ 2 ^ (s.cfg.wordBits - 1) ∧ s.tape.size + 4 ≤ 2 ^ (s.cfg.wordBits - 1)

/-- The tape is in canonical form and holds words (R9, R40). -/
abbrev TapeOk (s : State) : Prop := s.tape.wf ∧ ∀ c ∈ s.tape.cells, Fits s.cfg.wordBits c.2

/-- The registers are in the ranges of R21, and the output sequence holds words (R9). -/
abbrev RegistersOk (s : State) : Prop :=
  s.pc ≤ s.tape.size + 3 ∧ s.inCur ≤ s.cfg.inputLen ∧ s.outCur = s.out.length ∧
  (∀ v ∈ s.out, Fits s.cfg.wordBits v)

/-- The fault record of a faulted run (R25, R26, R173, R174, R176). -/
abbrev FaultRecordSound (s : State) : Prop :=
  s.faultKind ≠ .none ∧
  (s.faultAccess ≠ .none ↔ s.faultKind = .invalidAddress) ∧
  s.faultPc = s.pc ∧
  s.faultWord = (if s.faultAccess = .fetch then 0 else s.tape.read s.pc) ∧
  Fits s.cfg.wordBits s.faultValue ∧
  (s.faultKind = .inputExhausted → s.inCur = s.cfg.inputLen ∧ s.faultValue = (s.inCur : Int)) ∧
  (s.faultKind = .arithmeticOverflow → s.cfg.overflowMode = .fault ∧ s.faultValue = 0)

/-- What holds in every state of a run from `construct`. -/
abbrev State.Inv (s : State) : Prop :=
  ConfigOk s ∧ TapeOk s ∧ RegistersOk s ∧
  (s.status = .faulted → FaultRecordSound s) ∧ (s.status ≠ .faulted → FaultRecordZero s)

end Sys2Proof.Machine
end

