-- ==== Sys2Proof/Certificates/Slice0/Obligations.lean ====
section
/-! DEFINITION. The statements for the provers, from the numbered rules of spec/.
The operands of a statement are described by `ValueIs`, `HasOperand`, `rawWord` and `InTape` of Safety.lean, which read the
state alone; the states a statement concludes with are written out. -/

open Sys2Proof Sys2Proof.Machine

/-! ## Encoding -/

/-- Decoding the instruction word of a well-formed instruction gives the instruction back, with every mode digit at every
value it admits (R60, R61, R62, R66 and the word of R71). -/
def Obligations.DecodeOfEncodeIsTheInstruction : Prop :=
  ∀ i : Instr, i.WellFormed → decode (encode i) = .ok i

/-- A word of at most five decimal digits that decodes is the word of the instruction it decodes to, so that no digit of
`d0` to `d4` is dropped (R60, R61, R62). -/
def Obligations.EncodeOfDecodeIsTheWord : Prop :=
  ∀ (w : Int) (i : Instr), 0 ≤ w → w ≤ 99999 → decode w = .ok i → i.WellFormed ∧ encode i = w

/-- Every word decodes to one of the nine instructions, the one its low two digits name, or is an unknown opcode; every
negative word is an unknown opcode (R61, R66, R69, R70). -/
def Obligations.EveryWordDecodesOrIsUnknown : Prop :=
  (∀ w : Int, 0 ≤ w → w % 100 ∈ opcodeList → ∃ i, decode w = .ok i ∧ i.opcode = w % 100) ∧
  (∀ w : Int, 0 ≤ w → w % 100 ∉ opcodeList → decode w = .error (.unknownOpcode (w % 100))) ∧
  (∀ w : Int, w < 0 → decode w = .error (.unknownOpcode (w.tmod 100)))

/-- Digits `d5` and above change nothing (R64, the spec's inference from R61 and R62, and its decision D5). -/
def Obligations.DigitsAboveTheModesAreIgnored : Prop :=
  ∀ w k : Int, 0 ≤ w → 0 ≤ k → decode (w + 100000 * k) = decode w

/-- Instruction words written out from the decimal pattern of R60 and the opcode map of R66 decode to the instructions they
stand for. -/
def Obligations.SpecWordsDecode : Prop :=
  decode 1002 = .ok (.mul ⟨.position, .immediate, .position⟩) ∧
  decode 11101 = .ok (.add ⟨.immediate, .immediate, .immediate⟩) ∧
  decode 203 = .ok (.inp ⟨.other 2, .position, .position⟩) ∧
  decode 104 = .ok (.out ⟨.immediate, .position, .position⟩) ∧
  decode 20105 = .ok (.jt ⟨.immediate, .position, .other 2⟩) ∧
  decode 1006 = .ok (.jf ⟨.position, .immediate, .position⟩) ∧
  decode 307 = .ok (.lt ⟨.other 3, .position, .position⟩) ∧
  decode 1108 = .ok (.eq ⟨.immediate, .immediate, .position⟩) ∧
  decode 2299 = .ok (.halt ⟨.other 2, .other 2, .position⟩) ∧
  decode (-99) = .error (.unknownOpcode (-99))

/-- Two words that differ only in digits an instruction does not consult run alike on every state: the destination's digit
and everything above it, and for IN, OUT and HALT every digit above the opcode (R64, R66, R69, R84). -/
def Obligations.UnconsultedDigitsHaveNoEffect : Prop :=
  ∀ (w w' : Int) (i i' : Instr) (s : State), 0 ≤ w → 0 ≤ w' → decode w = .ok i → decode w' = .ok i' →
    (w % 10000 = w' % 10000 ∨ (w % 100 = w' % 100 ∧ w % 100 ∈ ([3, 4, 99] : List Int))) →
    exec i s = exec i' s

/-! ## The step -/

/-- While the status is `Running`, a step is the meaning of the instruction the word at `PC` decodes to (R150, R152,
R154). -/
def Obligations.StepRunsTheDecodedInstruction : Prop :=
  ∀ (s : State) (i : Instr), s.status = .running → s.pc < s.tape.size → decode (s.tape.read s.pc) = .ok i →
    step s = exec i s

/-- Fetch reads the word at `PC`; with `PC` at or past the end of the tape the step faults `InvalidAddress`, access FETCH,
with `FAULT_VALUE = PC` and `FAULT_WORD = 0`, and so does the first step on an empty tape (R151). -/
def Obligations.FetchReadsThePcOrFaults : Prop :=
  (∀ s : State, s.pc < s.tape.size → fetch s = .ok (s.tape.read s.pc)) ∧
  (∀ s : State, s.status = .running → s.tape.size ≤ s.pc →
    step s = .next
      { s with
        status := .faulted
        faultKind := .invalidAddress
        faultAccess := .fetch
        faultPc := s.pc
        faultWord := 0
        faultValue := (s.pc : Int) }) ∧
  step State.reset = .next
    { State.reset with
      status := .faulted
      faultKind := .invalidAddress
      faultAccess := .fetch }

/-- A word whose opcode has no row, every negative word included, faults `UnknownOpcode` with the decoded opcode as its
value and the whole word recorded, whatever follows it on the tape (R171). -/
def Obligations.UnknownOpcodeFaults : Prop :=
  FaultKind.unknownOpcode.code = 2#3 ∧
  ∀ s : State, s.status = .running → s.pc < s.tape.size →
    (s.tape.read s.pc < 0 ∨ (s.tape.read s.pc).tmod 100 ∉ opcodeList) →
    step s = .next (faultedState s .unknownOpcode .none ((s.tape.read s.pc).tmod 100))

/-- A step request in a terminal status changes no state and returns the status; the loop of `run` exits in a terminal
status, and only there (R157). -/
def Obligations.TerminalStatusIsFinal : Prop :=
  (∀ s : State, s.status ≠ .running → step s = .next s ∧ stepRequest s = some (s, s.status)) ∧
  (∀ (k : Nat) (s : State), s.status ≠ .running → run k s = some (s, s.result)) ∧
  (∀ (k : Nat) (s t : State) (r : RunResult), run k s = some (t, r) → t.status ≠ .running ∧ r.status ≠ .running)

/-- Every step request answers a next state: no state, word or operand makes the model stop or refuse.
That a fault, and a step request in a terminal status, are next states is the model's own choice (DESIGN CHOICE, log
entry 6); the spec says only what state they leave. -/
def Obligations.EveryStepAnswersANextState : Prop :=
  ∀ s : State, ∃ t, step s = .next t

/-- The status: its codes, its reset value, and its only transitions, `Running` to `Halted` by a HALT word and `Running` to
`Faulted` by a fault; the terminal statuses are never left (R24). -/
def Obligations.StatusTransitions : Prop :=
  (Status.running.code = 0b00#2 ∧ Status.halted.code = 0b01#2 ∧ Status.faulted.code = 0b10#2 ∧
    ∀ x : Status, x.code ≠ 0b11#2) ∧
  State.reset.status = .running ∧
  (∀ s t : State, step s = .next t →
    t.status = s.status ∨
    (s.status = .running ∧ t.status = .halted ∧ ∃ m, decode (s.tape.read s.pc) = .ok (.halt m)) ∨
    (s.status = .running ∧ t.status = .faulted)) ∧
  (∀ s t : State, step s = .next t → s.status ≠ .running → t.status = s.status)

/-- A step that faults does exactly fault entry: the status and the fault record are written, and the tape, `PC`,
`IN_CUR`, `OUT`, `OUT_CUR` and the parameters are as before the step; the caller gets the record as one value, with the
outputs made before the fault (R176).
For an IN whose destination write faults, the clause about `IN_CUR` is the spec's decision D8, which
93_implementation_defined.md lists as a behaviour the source leaves open (log entry 9). -/
def Obligations.FaultsArePrecise : Prop :=
  ∀ s t : State, step s = .next t → s.status = .running → t.status = .faulted →
    ∃ (kind : FaultKind) (access : FaultAccess) (value : Int),
      kind ≠ .none ∧ (access ≠ .none ↔ kind = .invalidAddress) ∧
      t = { s with
            status := .faulted
            faultKind := kind
            faultAccess := access
            faultPc := s.pc
            faultWord := if access = .fetch then 0 else s.tape.read s.pc
            faultValue := value } ∧
      t.result.fault = some ⟨kind, access, s.pc, if access = .fetch then 0 else s.tape.read s.pc, value⟩ ∧
      t.result.outputs = s.out

/-- The codes of the fault kinds and of the address accesses, and that codes 6 and 7 are never produced (R25). -/
def Obligations.FaultCodes : Prop :=
  [FaultKind.none, .invalidAddress, .unknownOpcode, .invalidMode, .inputExhausted, .arithmeticOverflow].map
    FaultKind.code = [0#3, 1#3, 2#3, 3#3, 4#3, 5#3] ∧
  [FaultAccess.none, .fetch, .arg, .read, .write, .jump].map FaultAccess.code = [0#3, 1#3, 2#3, 3#3, 4#3, 5#3] ∧
  (∀ k : FaultKind, k.code ≠ 6#3 ∧ k.code ≠ 7#3) ∧ (∀ a : FaultAccess, a.code ≠ 6#3 ∧ a.code ≠ 7#3)

/-- The fault record is zero at reset, is written only by a step that enters `Faulted`, and so stays zero in a run that
does not fault (R26). -/
def Obligations.FaultRecordIsWrittenOnlyAtFaultEntry : Prop :=
  FaultRecordZero State.reset ∧
  (∀ s t : State, step s = .next t → ¬ (s.status = .running ∧ t.status = .faulted) →
    t.faultRecord = s.faultRecord) ∧
  (∀ s t : State, step s = .next t → t.status ≠ .faulted → FaultRecordZero s → FaultRecordZero t)

/-- No instruction reads the fault record: with any other record before the step, the instruction does the same, and the
record is either the one fault entry writes or the one that was there (R26). -/
def Obligations.NoInstructionReadsTheFaultRecord : Prop :=
  ∀ (i : Instr) (s t : State) (r : FaultRecord), s.status = .running → exec i s = .next t →
    exec i (withRecord s r) = .next (if t.status = .faulted then t else withRecord t r)

/-- No step changes the parameters of the run or the length of the tape (R7, R20, R40). -/
def Obligations.StepKeepsTheParameters : Prop :=
  ∀ s t : State, step s = .next t → t.cfg = s.cfg ∧ t.tape.size = s.tape.size

/-! ## Invariants -/

/-- Every step keeps the invariant of a run: the parameters are admitted ones, the tape is in canonical form and holds
words, the registers are in their ranges, `OUT_CUR` is the length of `OUT`, and the fault record is zero or describes the
fault (R7, R9, R21, R23, R25 to R28, R173, R174). -/
def Obligations.StepKeepsTheInvariant : Prop :=
  ∀ s t : State, s.Inv → step s = .next t → t.Inv

/-- The state after reset meets the invariant. -/
def Obligations.ResetMeetsTheInvariant : Prop := State.reset.Inv

/-- Every state `construct` makes meets the invariant (R190, R193). -/
def Obligations.ConstructMeetsTheInvariant : Prop :=
  ∀ (cfg : Config) (ws : List Word) (s : State), construct cfg ws = some s → s.Inv

/-- Every step keeps the canonical form of the tape, from every state whose tape has it (log entry 5). -/
def Obligations.StepKeepsTheTapeForm : Prop :=
  ∀ s t : State, s.tape.wf → step s = .next t → t.tape.wf

/-- `PC` stays in `0` to `N + 3`, and in a state that goes on running it is an index or at most three past the end
(R23, the spec's inference from R22, R122 and R151). -/
def Obligations.PcStaysInRange : Prop :=
  ∀ s t : State, s.pc ≤ s.tape.size + 3 → step s = .next t → t.pc ≤ t.tape.size + 3

/-- `OUT` is append-only: empty at reset; an OUT that completes appends one word, the tape word its operand indexes, at its
end and moves `OUT_CUR` by 1; every other step leaves `OUT` and `OUT_CUR`; `OUT_CUR` stays the length of `OUT`; a step that
faults leaves `OUT` (R28). -/
def Obligations.OutputIsAppendOnly : Prop :=
  (State.reset.out = [] ∧ State.reset.outCur = 0) ∧
  (∀ (s t : State) (m : Modes), step s = .next t → s.status = .running → s.pc < s.tape.size →
    decode (s.tape.read s.pc) = .ok (.out m) → t.status = .running →
    t.out = s.out ++ [s.tape.read (rawWord s 1).toNat] ∧ t.outCur = s.outCur + 1) ∧
  (∀ s t : State, step s = .next t →
    (t.out = s.out ∧ t.outCur = s.outCur) ∨
    (s.status = .running ∧ t.status = .running ∧ s.pc < s.tape.size ∧
      ∃ m, decode (s.tape.read s.pc) = .ok (.out m))) ∧
  (∀ s t : State, step s = .next t → s.outCur = s.out.length → t.outCur = t.out.length) ∧
  (∀ s t : State, step s = .next t → t.status = .faulted → t.out = s.out)

/-- `IN_CUR` starts at 0, moves by 1 in every IN that completes and in no other step, and never passes `M`; the word consumed is the
one at `IN_CUR`, and it is the word stored at the destination (R27).
That a faulting IN leaves `IN_CUR` is also rule R110 with the spec's decision D8; see `FaultsArePrecise` (log entry 9). -/
def Obligations.InputIsConsumedInOrder : Prop :=
  State.reset.inCur = 0 ∧
  (∀ (s t : State) (m : Modes), step s = .next t → s.status = .running → s.pc < s.tape.size →
    decode (s.tape.read s.pc) = .ok (.inp m) → t.status = .running → t.inCur = s.inCur + 1) ∧
  (∀ s t : State, step s = .next t →
    t.inCur = s.inCur ∨
    (s.status = .running ∧ t.status = .running ∧ (∃ m, decode (s.tape.read s.pc) = .ok (.inp m)) ∧
      t.inCur = s.inCur + 1 ∧ s.inCur < s.cfg.inputLen ∧
      s.cfg.input[s.inCur]? = some (t.tape.read (rawWord s 1).toNat))) ∧
  (∀ s t : State, step s = .next t → s.inCur ≤ s.cfg.inputLen → t.inCur ≤ t.cfg.inputLen)

/-! ## The tape -/

/-- `MemRead`: an index outside `[0, N)` faults `InvalidAddress` with the caller's access tag and the index, and a step that
meets this fault records both, whatever it would have done next; any other index gives the word there (R41; that a read has
no side effect is its type: it gives a word and no state). -/
def Obligations.MemReadChecksTheRange : Prop :=
  (∀ (s : State) (acc : FaultAccess) (a : Int), (a < 0 ∨ a ≥ (s.tape.size : Int)) →
    memRead acc s a = .error ⟨.invalidAddress, acc, a⟩) ∧
  (∀ (s : State) (acc : FaultAccess) (a : Int) (k : Int → Except FaultRequest State),
    (a < 0 ∨ a ≥ (s.tape.size : Int)) →
    ∃ t, commit s (memRead acc s a >>= k) = .next t ∧ t.status = .faulted ∧ t.faultKind = .invalidAddress ∧
      t.faultAccess = acc ∧ t.faultValue = a) ∧
  (∀ (s : State) (acc : FaultAccess) (a : Nat), a < s.tape.size → memRead acc s (a : Int) = .ok (s.tape.read a))

/-- `MemWrite`: an index outside `[0, N)` faults `InvalidAddress`, access WRITE, with the index; any other write succeeds,
is read back, and changes no other word and nothing but the tape (R42). -/
def Obligations.MemWriteChangesOneWord : Prop :=
  (∀ (s : State) (a v : Int), (a < 0 ∨ a ≥ (s.tape.size : Int)) →
    memWrite s a v = .error ⟨.invalidAddress, .write, a⟩) ∧
  (∀ (s : State) (a v : Int), InTape s a →
    ∃ t, memWrite s a v = .ok t ∧
      (∀ acc, memRead acc t a = .ok v) ∧
      (∀ (acc : FaultAccess) (b : Int), b ≠ a → memRead acc t b = memRead acc s b) ∧
      { t with tape := s.tape } = s)

/-- Two tapes in canonical form that have the same length and read alike are equal, so that a state is determined by what
can be read of it (the model's representation, log entry 5). -/
def Obligations.TapeFormIsCanonical : Prop :=
  ∀ m m' : Memory, m.wf → m'.wf → m.size = m'.size → (∀ a, a < m.size → m.read a = m'.read a) → m = m'

/-- The sparse tape is the spec's sequence of words: a tape made from words lists those words, and a write is the write at
that place of the sequence (R40; the representation is the model's, log entry 5). -/
def Obligations.TapeIsASequenceOfWords : Prop :=
  (∀ ws : List Word, (Memory.ofWords ws).toWords = ws) ∧
  (∀ (m : Memory) (a : Nat) (v : Int), a < m.size → (m.write a v).toWords = m.toWords.set a v)

/-! ## What each instruction does -/

/-- ADD: the exact sum is stored when it is a word; otherwise `Wrap` stores `wrap` of it and `Fault` faults
`ArithmeticOverflow` with value 0, before the destination is checked; `PC` advances by 4 and nothing else changes (R100,
R102). -/
def Obligations.AddResult : Prop :=
  ∀ (s : State) (m : Modes) (a b : Int),
    ValueIs s 1 m.mode1 a → ValueIs s 2 m.mode2 b → HasOperand s 3 →
    (Fits s.cfg.wordBits (a + b) → InTape s (rawWord s 3) →
      exec (.add m) s = .next
        { s with tape := s.tape.write (rawWord s 3).toNat (a + b), pc := s.pc + 4 }) ∧
    (¬ Fits s.cfg.wordBits (a + b) → s.cfg.overflowMode = .wrap → InTape s (rawWord s 3) →
      exec (.add m) s = .next
        { s with tape := s.tape.write (rawWord s 3).toNat (wrap s.cfg.wordBits (a + b)), pc := s.pc + 4 }) ∧
    (¬ Fits s.cfg.wordBits (a + b) → s.cfg.overflowMode = .fault →
      exec (.add m) s = .next (faultedState s .arithmeticOverflow .none 0))

/-- MUL: as ADD, with the exact product (R101, R102). -/
def Obligations.MulResult : Prop :=
  ∀ (s : State) (m : Modes) (a b : Int),
    ValueIs s 1 m.mode1 a → ValueIs s 2 m.mode2 b → HasOperand s 3 →
    (Fits s.cfg.wordBits (a * b) → InTape s (rawWord s 3) →
      exec (.mul m) s = .next
        { s with tape := s.tape.write (rawWord s 3).toNat (a * b), pc := s.pc + 4 }) ∧
    (¬ Fits s.cfg.wordBits (a * b) → s.cfg.overflowMode = .wrap → InTape s (rawWord s 3) →
      exec (.mul m) s = .next
        { s with tape := s.tape.write (rawWord s 3).toNat (wrap s.cfg.wordBits (a * b)), pc := s.pc + 4 }) ∧
    (¬ Fits s.cfg.wordBits (a * b) → s.cfg.overflowMode = .fault →
      exec (.mul m) s = .next (faultedState s .arithmeticOverflow .none 0))

/-- LT: the destination gets exactly 1 when the first operand is less, signed, and 0 otherwise; `PC` advances by 4 and
nothing else changes (R130). -/
def Obligations.LtResult : Prop :=
  ∀ (s : State) (m : Modes) (a b : Int),
    ValueIs s 1 m.mode1 a → ValueIs s 2 m.mode2 b → HasOperand s 3 → InTape s (rawWord s 3) →
    (a < b → exec (.lt m) s = .next { s with tape := s.tape.write (rawWord s 3).toNat 1, pc := s.pc + 4 }) ∧
    (¬ a < b → exec (.lt m) s = .next { s with tape := s.tape.write (rawWord s 3).toNat 0, pc := s.pc + 4 })

/-- EQ: the destination gets exactly 1 when the operands are equal and 0 otherwise; `PC` advances by 4 and nothing else
changes (R131). -/
def Obligations.EqResult : Prop :=
  ∀ (s : State) (m : Modes) (a b : Int),
    ValueIs s 1 m.mode1 a → ValueIs s 2 m.mode2 b → HasOperand s 3 → InTape s (rawWord s 3) →
    (a = b → exec (.eq m) s = .next { s with tape := s.tape.write (rawWord s 3).toNat 1, pc := s.pc + 4 }) ∧
    (a ≠ b → exec (.eq m) s = .next { s with tape := s.tape.write (rawWord s 3).toNat 0, pc := s.pc + 4 })

/-- IN: the input word at `IN_CUR` is stored at the destination, `IN_CUR` moves by 1, `PC` advances by 2, nothing else
changes; no mode digit matters, and IN never waits (R110, R113). -/
def Obligations.InResult : Prop :=
  ∀ (s : State) (m : Modes) (v : Int),
    HasOperand s 1 → InTape s (rawWord s 1) → s.cfg.input[s.inCur]? = some v →
    exec (.inp m) s = .next
      { s with tape := s.tape.write (rawWord s 1).toNat v, inCur := s.inCur + 1, pc := s.pc + 2 }

/-- OUT: the tape word its operand indexes, whatever the mode digits, is appended to `OUT`, `OUT_CUR` moves by 1, `PC`
advances by 2, nothing else changes (R111). -/
def Obligations.OutResult : Prop :=
  ∀ (s : State) (m : Modes),
    HasOperand s 1 → InTape s (rawWord s 1) →
    exec (.out m) s = .next
      { s with out := s.out ++ [s.tape.read (rawWord s 1).toNat], outCur := s.outCur + 1, pc := s.pc + 2 }

/-- Every non-negative word whose opcode is OUT appends the tape word its operand indexes, so an Immediate mode digit is
not honoured (R112). -/
def Obligations.OutNeverHonoursAnImmediateDigit : Prop :=
  ∀ s : State, s.status = .running → s.pc < s.tape.size → 0 ≤ s.tape.read s.pc → s.tape.read s.pc % 100 = 4 →
    HasOperand s 1 → InTape s (rawWord s 1) →
    step s = .next
      { s with out := s.out ++ [s.tape.read (rawWord s 1).toNat], outCur := s.outCur + 1, pc := s.pc + 2 }

/-- JT: on a condition other than 0 `PC` becomes the target's value, which honours its mode and lies on the tape; on 0 `PC`
advances by 3 and the target operand is not looked at; only `PC` changes (R120). -/
def Obligations.JtResult : Prop :=
  ∀ (s : State) (m : Modes) (c : Int), ValueIs s 1 m.mode1 c →
    (∀ t : Int, c ≠ 0 → ValueIs s 2 m.mode2 t → InTape s t → exec (.jt m) s = .next { s with pc := t.toNat }) ∧
    (c = 0 → exec (.jt m) s = .next { s with pc := s.pc + 3 })

/-- JF: as JT, with the jump taken on 0 and not otherwise (R121). -/
def Obligations.JfResult : Prop :=
  ∀ (s : State) (m : Modes) (c : Int), ValueIs s 1 m.mode1 c →
    (∀ t : Int, c = 0 → ValueIs s 2 m.mode2 t → InTape s t → exec (.jf m) s = .next { s with pc := t.toNat }) ∧
    (c ≠ 0 → exec (.jf m) s = .next { s with pc := s.pc + 3 })

/-- HALT: the status becomes `Halted` and nothing else changes; its length is 1 word; every non-negative word whose low two digits are 99 is HALT,
-99 is not, and no HALT word faults, even at the last index of the tape (R140). -/
def Obligations.HaltResult : Prop :=
  (∀ (s : State) (m : Modes), exec (.halt m) s = .next { s with status := .halted }) ∧
  (∀ m : Modes, (Instr.halt m).opcode = 99 ∧ (Instr.halt m).format = .f0 ∧ (Instr.halt m).length = 1) ∧
  (∀ s : State, s.status = .running → s.pc < s.tape.size → 0 ≤ s.tape.read s.pc → s.tape.read s.pc % 100 = 99 →
    step s = .next { s with status := .halted }) ∧
  (∀ s : State, s.status = .running → s.pc < s.tape.size → s.tape.read s.pc = -99 →
    step s = .next (faultedState s .unknownOpcode .none (-99)))

/-- A word an instruction stores is what the next step fetches: an IN whose destination is the word after it, `PC + 2`, and
an ADD, MUL, LT or EQ whose destination is the word after it, `PC + 4`, change the next instruction (R54, the spec's
inference from R43 and R51). -/
def Obligations.NextFetchSeesTheWrite : Prop :=
  (∀ (s : State) (m : Modes) (v : Int),
    s.pc + 2 < s.tape.size → rawWord s 1 = ((s.pc + 2 : Nat) : Int) → s.cfg.input[s.inCur]? = some v →
    ∃ t, exec (.inp m) s = .next t ∧ fetch t = .ok v) ∧
  (∀ (s : State) (m : Modes) (a b : Int),
    ValueIs s 1 m.mode1 a → ValueIs s 2 m.mode2 b → s.pc + 4 < s.tape.size →
    rawWord s 3 = ((s.pc + 4 : Nat) : Int) →
    (Fits s.cfg.wordBits (a + b) → ∃ t, exec (.add m) s = .next t ∧ fetch t = .ok (a + b)) ∧
    (¬ Fits s.cfg.wordBits (a + b) → s.cfg.overflowMode = .wrap →
      ∃ t, exec (.add m) s = .next t ∧ fetch t = .ok (wrap s.cfg.wordBits (a + b))) ∧
    (Fits s.cfg.wordBits (a * b) → ∃ t, exec (.mul m) s = .next t ∧ fetch t = .ok (a * b)) ∧
    (¬ Fits s.cfg.wordBits (a * b) → s.cfg.overflowMode = .wrap →
      ∃ t, exec (.mul m) s = .next t ∧ fetch t = .ok (wrap s.cfg.wordBits (a * b))) ∧
    (∃ t, exec (.lt m) s = .next t ∧ fetch t = .ok (if a < b then 1 else 0)) ∧
    (∃ t, exec (.eq m) s = .next t ∧ fetch t = .ok (if a = b then 1 else 0)))

/-- `wrap(v)` is the one word congruent to `v` modulo `2^W` (R9). -/
def Obligations.WrapIsTheCongruentWord : Prop :=
  ∀ (W : Nat) (v : Int), 1 ≤ W →
    Fits W (wrap W v) ∧ ((2 ^ W : Nat) : Int) ∣ wrap W v - v ∧
    ∀ u : Int, Fits W u → ((2 ^ W : Nat) : Int) ∣ u - v → u = wrap W v

/-! ## Where each instruction faults -/

/-- A mode digit that is not 0 or 1 faults `InvalidMode` with the digit as value, before the operand's raw word is read, when
a value operand consumes it, and in no other case (R172). -/
def Obligations.InvalidModeFaults : Prop :=
  FaultKind.invalidMode.code = 3#3 ∧
  (∀ (i : Instr) (s : State) (d : Int), consultsMode1 i = true → i.modes.mode1 = .other d →
    exec i s = .next (faultedState s .invalidMode .none d)) ∧
  (∀ (i : Instr) (s : State) (v d : Int), consultsMode1 i = true → ValueIs s 1 i.modes.mode1 v →
    consultsMode2 i v = true → i.modes.mode2 = .other d →
    exec i s = .next (faultedState s .invalidMode .none d)) ∧
  (∀ (i : Instr) (s t : State), s.status = .running → exec i s = .next t → t.status = .faulted →
    t.faultKind = .invalidMode →
    (consultsMode1 i = true ∧ i.modes.mode1 = .other t.faultValue) ∨
    (∃ v, ValueIs s 1 i.modes.mode1 v ∧ consultsMode2 i v = true ∧ i.modes.mode2 = .other t.faultValue))

/-- A raw operand word at or past the end of the tape faults `InvalidAddress`, access ARG, with `PC + k` as value, for every
instruction that reads operand `k` and once the operands before it resolve (R80, R170). -/
def Obligations.MissingOperandFaults : Prop :=
  (∀ (i : Instr) (s : State), i.format ≠ .f0 → (consultsMode1 i = true → IsMode i.modes.mode1) →
    s.tape.size ≤ s.pc + 1 →
    exec i s = .next (faultedState s .invalidAddress .arg ((s.pc + 1 : Nat) : Int))) ∧
  (∀ (i : Instr) (s : State) (v : Int), ValueIs s 1 i.modes.mode1 v → consultsMode2 i v = true →
    IsMode i.modes.mode2 → s.tape.size ≤ s.pc + 2 →
    exec i s = .next (faultedState s .invalidAddress .arg ((s.pc + 2 : Nat) : Int))) ∧
  (∀ (i : Instr) (s : State) (a b : Int), i.format = .f3 → ValueIs s 1 i.modes.mode1 a →
    ValueIs s 2 i.modes.mode2 b → s.tape.size ≤ s.pc + 3 →
    exec i s = .next (faultedState s .invalidAddress .arg ((s.pc + 3 : Nat) : Int)))

/-- A Position operand whose raw word is no index of the tape, and OUT's operand likewise, faults `InvalidAddress`, access
READ, with the raw word as value (R85, R111, R170). -/
def Obligations.DereferenceOutsideTheTapeFaults : Prop :=
  (∀ (i : Instr) (s : State), consultsMode1 i = true → i.modes.mode1 = .position → HasOperand s 1 →
    ¬ InTape s (rawWord s 1) →
    exec i s = .next (faultedState s .invalidAddress .read (rawWord s 1))) ∧
  (∀ (i : Instr) (s : State) (v : Int), ValueIs s 1 i.modes.mode1 v → consultsMode2 i v = true →
    i.modes.mode2 = .position → HasOperand s 2 → ¬ InTape s (rawWord s 2) →
    exec i s = .next (faultedState s .invalidAddress .read (rawWord s 2))) ∧
  (∀ (m : Modes) (s : State), HasOperand s 1 → ¬ InTape s (rawWord s 1) →
    exec (.out m) s = .next (faultedState s .invalidAddress .read (rawWord s 1)))

/-- A destination outside the tape faults `InvalidAddress`, access WRITE, with the destination as value, once the operands
resolve and the result or the input word is there (R42, R170).
For IN, that the faulted state keeps `IN_CUR` is the spec's decision D8, which 93_implementation_defined.md leaves open; the
model's choice to keep it is log entry 9 (DESIGN CHOICE). -/
def Obligations.DestinationOutsideTheTapeFaults : Prop :=
  (∀ (m : Modes) (s : State) (a b : Int), ValueIs s 1 m.mode1 a → ValueIs s 2 m.mode2 b → HasOperand s 3 →
    ¬ InTape s (rawWord s 3) →
    ((Fits s.cfg.wordBits (a + b) ∨ s.cfg.overflowMode = .wrap) →
      exec (.add m) s = .next (faultedState s .invalidAddress .write (rawWord s 3))) ∧
    ((Fits s.cfg.wordBits (a * b) ∨ s.cfg.overflowMode = .wrap) →
      exec (.mul m) s = .next (faultedState s .invalidAddress .write (rawWord s 3))) ∧
    exec (.lt m) s = .next (faultedState s .invalidAddress .write (rawWord s 3)) ∧
    exec (.eq m) s = .next (faultedState s .invalidAddress .write (rawWord s 3))) ∧
  (∀ (m : Modes) (s : State), HasOperand s 1 → ¬ InTape s (rawWord s 1) → s.inCur < s.cfg.inputLen →
    exec (.inp m) s = .next (faultedState s .invalidAddress .write (rawWord s 1)))

/-- A taken jump whose target is outside the tape, negative or at or past `N`, faults `InvalidAddress`, access JUMP, in its
own step, with the target as value and `PC` unchanged (R122). -/
def Obligations.JumpOutsideTheTapeFaults : Prop :=
  ∀ (m : Modes) (s : State) (c t : Int), ValueIs s 1 m.mode1 c → ValueIs s 2 m.mode2 t → ¬ InTape s t →
    (c ≠ 0 → exec (.jt m) s = .next (faultedState s .invalidAddress .jump t)) ∧
    (c = 0 → exec (.jf m) s = .next (faultedState s .invalidAddress .jump t))

/-- An IN with `IN_CUR` at or past `M` faults `InputExhausted` with `IN_CUR` as value, whatever its destination; no other
instruction raises it, and no IN with `IN_CUR` before `M`; and where `IN_CUR` is in its range the value is `M` (R173). -/
def Obligations.InputExhaustedFaults : Prop :=
  FaultKind.inputExhausted.code = 4#3 ∧
  (∀ (m : Modes) (s : State), HasOperand s 1 → s.cfg.inputLen ≤ s.inCur →
    exec (.inp m) s = .next (faultedState s .inputExhausted .none (s.inCur : Int))) ∧
  (∀ s t : State, step s = .next t → s.status = .running → t.status = .faulted →
    t.faultKind = .inputExhausted →
    (∃ m, decode (s.tape.read s.pc) = .ok (.inp m)) ∧ s.cfg.inputLen ≤ s.inCur ∧
    t.faultValue = (s.inCur : Int) ∧
    (s.inCur ≤ s.cfg.inputLen → t.faultValue = (s.cfg.inputLen : Int)))

/-- `ArithmeticOverflow` is raised by ADD or MUL only, with value 0, only when `OVERFLOW_MODE = Fault` and the exact result
of the operands is not a word (R174). -/
def Obligations.OverflowFaultOnlyInFaultMode : Prop :=
  ∀ s t : State, step s = .next t → s.status = .running → t.status = .faulted →
    t.faultKind = .arithmeticOverflow →
    s.cfg.overflowMode = .fault ∧ t.faultValue = 0 ∧
    ∃ (m : Modes) (a b : Int), ValueIs s 1 m.mode1 a ∧ ValueIs s 2 m.mode2 b ∧
      ((decode (s.tape.read s.pc) = .ok (.add m) ∧ ¬ Fits s.cfg.wordBits (a + b)) ∨
       (decode (s.tape.read s.pc) = .ok (.mul m) ∧ ¬ Fits s.cfg.wordBits (a * b)))

/-! ## Frames -/

/-- ADD, MUL, LT and EQ leave every word of the tape but the destination, the input and output registers, the parameters,
and, unless they fault, the status and the fault record; if they fault they leave the whole tape and `PC` (R100, R101,
R130, R131, R155). -/
def Obligations.StoringInstructionsFrame : Prop :=
  ∀ (m : Modes) (i : Instr) (s t : State), i ∈ [Instr.add m, Instr.mul m, Instr.lt m, Instr.eq m] →
    exec i s = .next t →
    t.cfg = s.cfg ∧ t.inCur = s.inCur ∧ t.out = s.out ∧ t.outCur = s.outCur ∧ t.tape.size = s.tape.size ∧
    (∀ a : Nat, (∀ d : Int, resolveAddress s 3 = .ok d → (a : Int) ≠ d) → t.tape.read a = s.tape.read a) ∧
    ((t.status = s.status ∧ t.faultRecord = s.faultRecord) ∨
     (t.status = .faulted ∧ t.tape = s.tape ∧ t.pc = s.pc))

/-- IN leaves every word of the tape but its destination, the output, the parameters, and, unless it faults, the status and
the fault record; `IN_CUR` moves by 1 unless it faults (R110, R155).
That an IN whose destination write faults keeps `IN_CUR` is the spec's decision D8, which 93_implementation_defined.md leaves
open; the model's choice to keep it is log entry 9 (DESIGN CHOICE). -/
def Obligations.InFrame : Prop :=
  ∀ (m : Modes) (s t : State), exec (.inp m) s = .next t →
    t.cfg = s.cfg ∧ t.out = s.out ∧ t.outCur = s.outCur ∧ t.tape.size = s.tape.size ∧
    (∀ a : Nat, (∀ d : Int, resolveAddress s 1 = .ok d → (a : Int) ≠ d) → t.tape.read a = s.tape.read a) ∧
    ((t.status = s.status ∧ t.faultRecord = s.faultRecord ∧ t.inCur = s.inCur + 1) ∨
     (t.status = .faulted ∧ t.tape = s.tape ∧ t.pc = s.pc ∧ t.inCur = s.inCur))

/-- OUT, JT, JF and HALT store nothing: every word of the tape reads as before.
They leave the parameters and `IN_CUR`; JT, JF and HALT leave `OUT` and `OUT_CUR`; and unless they fault OUT, JT and JF
leave the status and all four leave the fault record (R111, R120, R121, R140, R155). -/
def Obligations.InstructionsThatStoreNothingFrame : Prop :=
  ∀ (m : Modes) (i : Instr) (s t : State), i ∈ [Instr.out m, Instr.jt m, Instr.jf m, Instr.halt m] →
    exec i s = .next t →
    t.cfg = s.cfg ∧ t.inCur = s.inCur ∧ t.tape.size = s.tape.size ∧ (∀ a : Nat, t.tape.read a = s.tape.read a) ∧
    (i ≠ .out m → t.out = s.out ∧ t.outCur = s.outCur) ∧
    (i = .halt m → t.pc = s.pc ∧ t.status = .halted ∧ t.faultRecord = s.faultRecord) ∧
    (i ≠ .halt m →
      (t.status = s.status ∧ t.faultRecord = s.faultRecord) ∨
      (t.status = .faulted ∧ t.pc = s.pc ∧ t.out = s.out ∧ t.outCur = s.outCur))

/-! ## The dispatch FSM -/

/-- Run phase by phase in the order of R156, each phase ending the step at its first fault, the dispatch FSM comes to the
state the step gives (R155, R156, R177). -/
def Obligations.PhasesComputeTheStep : Prop :=
  ∀ s : State, s.status = .running → ∃ t, step s = .next t ∧ runPhases s = some t

/-! ## The host interface -/

/-- `construct` builds the state of R190: the given words on the tape, the given configuration, and every register at its
reset value. -/
def Obligations.ConstructBuildsTheResetState : Prop :=
  ∀ (cfg : Config) (ws : List Word) (s : State), construct cfg ws = some s →
    s.tape.size = ws.length ∧ (∀ k (h : k < ws.length), s.tape.read k = ws[k]) ∧ s.cfg = cfg ∧ s.pc = 0 ∧
    s.inCur = 0 ∧ s.out = [] ∧ s.outCur = 0 ∧ s.status = .running ∧ FaultRecordZero s

/-- `construct` refuses a tape word or an input word that is no word of the width (R160), and accepts every tape and input
that meet the host's duty (R7, R160, R193).
What it does with a width below 16, or a tape or an input that is too long, is the model's choice (log entry 8), and this
statement does not say it. -/
def Obligations.ConstructRefusesNonWords : Prop :=
  (∀ (cfg : Config) (ws : List Word) (v : Int), (v ∈ ws ∨ v ∈ cfg.input) → ¬ Fits cfg.wordBits v →
    construct cfg ws = none) ∧
  (∀ (cfg : Config) (ws : List Word), 16 ≤ cfg.wordBits → (∀ v ∈ ws, Fits cfg.wordBits v) →
    (∀ v ∈ cfg.input, Fits cfg.wordBits v) → ws.length + 4 ≤ 2 ^ (cfg.wordBits - 1) →
    cfg.input.length + 1 ≤ 2 ^ (cfg.wordBits - 1) → ∃ s, construct cfg ws = some s)

/-- A word that crosses a host bus of at least `W` bits by sign extension comes back as it was, and a bus value outside the
word range is refused (R11, R160). -/
def Obligations.BusCarriesWords : Prop :=
  (∀ (W n : Nat) (v : Int), 1 ≤ W → W ≤ n → Fits W v → fromBus W (toBus n v) = some v) ∧
  (∀ (W n : Nat) (b : BitVec n), ¬ Fits W b.toInt → fromBus W b = none)

/-- `run` is `step` repeated until the status is no longer `Running`: its result is that of the first such state, and it
has a result whenever steps within its bound come to such a state (R158, R159). -/
def Obligations.RunIsStepRepeated : Prop :=
  (∀ (k : Nat) (s t : State) (r : RunResult), run k s = some (t, r) →
    r = t.result ∧ t.status ≠ .running ∧
    ∃ j : Nat, j ≤ k ∧ Host.Core.run Sys2Proof.core j s = .next t ∧
      ∀ j' < j, ∃ u, Host.Core.run Sys2Proof.core j' s = .next u ∧ (u : State).status = .running) ∧
  (∀ (k : Nat) (s t : State), Host.Core.run Sys2Proof.core k s = .next t → t.status ≠ .running →
    run k s = some (t, t.result))

/-- What the host observes of the end of a run: `OUT` with `OUT_CUR`, the final tape, the status, the fault record, `PC` and
`IN_CUR` of the state that ends it, which the reads after `run` give again (the status, the fault kind and the access by
their codes); a run that was going on ends at a HALT word, with
`PC` on it, or faulted, with `FAULT_PC` equal to `PC` (R158, R160, R162). -/
def Obligations.HostObservesTheEndOfARun : Prop :=
  ∀ (k : Nat) (s t : State) (r : RunResult), run k s = some (t, r) →
    t.endOfRun = ⟨t.out, t.outCur, t.tape.toWords, t.status, t.faultRecord, t.pc, t.inCur⟩ ∧
    r.outputs = t.out ∧ r.finalTape = t.tape.toWords ∧ r.status = t.status ∧
    (t.status = .faulted → r.fault = some t.faultRecord) ∧ (t.status = .halted → r.fault = none) ∧
    (∀ i, i < t.tape.size → t.hostTape i = r.finalTape[i]?) ∧ (∀ i, i < t.out.length → t.hostOut i = r.outputs[i]?) ∧
    t.readRegister .pc = (t.pc : Int) ∧ t.readRegister .inCur = (t.inCur : Int) ∧
    t.readRegister .outCur = (t.outCur : Int) ∧ t.readRegister .status = (t.status.code.toNat : Int) ∧
    t.readRegister .faultKind = (t.faultKind.code.toNat : Int) ∧
    t.readRegister .faultAccess = (t.faultAccess.code.toNat : Int) ∧
    t.readRegister .faultPc = (t.faultPc : Int) ∧ t.readRegister .faultWord = t.faultWord ∧
    t.readRegister .faultValue = t.faultValue ∧
    (s.outCur = s.out.length → t.readRegister .outCur = (r.outputs.length : Int)) ∧
    (s.status = .running → t.status = .halted → ∃ m, decode (t.tape.read t.pc) = .ok (.halt m)) ∧
    (s.status = .running → t.status = .faulted → t.readRegister .faultPc = t.readRegister .pc)

/-- A result and the end of the run, once reached, do not depend on the bound on the steps (R197). -/
def Obligations.RunResultDoesNotDependOnTheBound : Prop :=
  ∀ (k n : Nat) (s t : State) (r : RunResult), run k s = some (t, r) → run (k + n) s = some (t, r)

/-- A JT taken to its own index loops forever: under every bound `run` has no result (R120, R123, R197). -/
def Obligations.JumpToSelfNeverEnds : Prop :=
  ∀ (s : State) (m : Modes) (c : Int), s.status = .running → s.pc < s.tape.size →
    decode (s.tape.read s.pc) = .ok (.jt m) → ValueIs s 1 m.mode1 c → c ≠ 0 →
    ValueIs s 2 m.mode2 (s.pc : Int) → ∀ k, run k s = none

/-- A table row's bits placed for the next step are the instruction the next step runs, from every state (the model's own
loading convention, log entries 4 and 7). -/
def Obligations.PlacedInstructionRunsNext : Prop :=
  ∀ (s : State) (nbits w : Nat) (i : Instr), decodeTableWord nbits w = some i →
    step (s.withFetchWord nbits w) = exec i (s.withFetchWord nbits w)
end

