-- ==== Sys2Proof/Laws/Decode.lean ====
section
/-! SUPPORT. Small lemmas of the decoder: digits of a word, modes and their digits, the opcode table. -/

namespace Sys2Proof

@[simp] theorem Mode.digit_ofDigit (d : Int) : (Mode.ofDigit d).digit = d := by
  unfold Mode.ofDigit
  split
  · simp_all [Mode.digit]
  · split
    · simp_all [Mode.digit]
    · rfl

theorem Mode.ofDigit_digit {m : Mode} (h : m.WellFormed) : Mode.ofDigit m.digit = m := by
  cases m with
  | position => rfl
  | immediate => rfl
  | other d =>
    obtain ⟨h2, h9⟩ : 2 ≤ d ∧ d ≤ 9 := of_decide_eq_true h
    have h0 : d ≠ 0 := by omega
    have h1 : d ≠ 1 := by omega
    simp [Mode.ofDigit, Mode.digit, h0, h1]

/-- The digit of a mode an instruction word carries. -/
theorem Mode.digit_bounds {m : Mode} (h : m.WellFormed) : 0 ≤ m.digit ∧ m.digit ≤ 9 := by
  cases m with
  | position => simp [Mode.digit]
  | immediate => simp [Mode.digit]
  | other d =>
    obtain ⟨h2, h9⟩ : 2 ≤ d ∧ d ≤ 9 := of_decide_eq_true h
    simp only [Mode.digit]
    omega

theorem Mode.wellFormed_ofDigit {d : Int} (h0 : 0 ≤ d) (h9 : d ≤ 9) : (Mode.ofDigit d).WellFormed := by
  unfold Mode.ofDigit
  split
  · rfl
  · split
    · rfl
    · exact decide_eq_true ⟨by omega, h9⟩

/-- On a word that is not negative the decoder's remainders are the ordinary ones (R10). -/
theorem digit_of_nonneg {w : Int} (h : 0 ≤ w) (k : Nat) : digit w k = w / ((10 ^ k : Nat) : Int) % 10 := by
  rw [digit, Int.tdiv_eq_ediv_of_nonneg h, Int.tmod_eq_emod_of_nonneg]
  exact Int.ediv_nonneg h (Int.natCast_nonneg _)

theorem opcodeOf_of_nonneg {w : Int} (h : 0 ≤ w) : opcodeOf w = w % 100 := Int.tmod_eq_emod_of_nonneg h

/-- The opcode table has exactly one row for each instruction's opcode, and its format is the instruction's. -/
theorem opcodeTable_rows : ∀ r ∈ opcodeTable, ∀ m, (r.make m).opcode = r.opcode ∧ (r.make m).format = r.format := by
  intro r hr m
  simp only [opcodeTable, List.mem_cons, List.not_mem_nil, or_false] at hr
  obtain rfl | rfl | rfl | rfl | rfl | rfl | rfl | rfl | rfl := hr <;> exact ⟨rfl, rfl⟩

/-- Two rows have different opcodes. -/
theorem opcodeTable_distinct : (opcodeTable.map (·.opcode)).Nodup := by decide

/-- The row of an instruction's opcode gives the instruction, with the modes it is looked up with. -/
@[simp] theorem lookup_opcode (i : Instr) : lookup i.opcode i.modes = some i := by
  cases i <;> rfl

/-- An instruction that the lookup gives has the opcode and the modes it was looked up with. -/
theorem lookup_some {op : Int} {m : Modes} {i : Instr} (h : lookup op m = some i) : i.opcode = op ∧ i.modes = m := by
  simp only [lookup, Option.map_eq_some_iff] at h
  obtain ⟨r, hr, rfl⟩ := h
  have hop : r.opcode = op := by simpa using List.find?_some hr
  have hmem := List.mem_of_find?_eq_some hr
  refine ⟨(opcodeTable_rows r hmem m).1.trans hop, ?_⟩
  simp only [opcodeTable, List.mem_cons, List.not_mem_nil, or_false] at hmem
  obtain rfl | rfl | rfl | rfl | rfl | rfl | rfl | rfl | rfl := hmem <;> rfl

/-- A word decodes to an instruction exactly when the instruction has the word's opcode and modes. -/
theorem decode_ok {w : Int} {i : Instr} : decode w = .ok i ↔ i.opcode = opcodeOf w ∧ i.modes = modesOf w := by
  constructor
  · intro h
    unfold decode at h
    split at h
    · cases h
      exact lookup_some ‹_›
    · cases h
  · rintro ⟨ho, hm⟩
    have := lookup_opcode i
    rw [ho, hm] at this
    simp [decode, this]

/-- The bits of a table row decode when the row's first word does. -/
theorem decode_of_decodeTableWord {nbits w : Nat} {i : Instr} (h : decodeTableWord nbits w = some i) :
    decode (tableWord nbits w 0) = .ok i := by
  have general : ∀ x : Except DecodeError Instr, x.toOption = some i → x = .ok i := by
    intro x hx
    cases x with
    | ok j =>
      cases hx
      rfl
    | error e => cases hx
  exact general _ h

end Sys2Proof
end

