-- ==== Sys2Proof/Laws/Host.lean ====
section
/-! SUPPORT. One turn of `run`, induction over it, one turn of the host's own repetition of `step`, and what the host sees of
a state. -/

namespace Sys2Proof.Machine

/-- In a terminal status `run` answers at once, under every bound. -/
theorem run_of_terminal {s : State} (hs : s.status ≠ .running) (k : Nat) : run k s = some (s, s.result) := by
  cases k <;> simp [run, hs]

/-- While the status is `Running`, `run` takes a step and goes on. -/
theorem run_succ {s t : State} (hs : s.status = .running) (h : step s = .next t) (k : Nat) :
    run (k + 1) s = run k t := by
  simp [run, hs, stepRequest, h]

/-- A step request that answers a state is a step that answers it. -/
theorem stepRequest_some {s t : State} {x : Status} (h : stepRequest s = some (t, x)) : step s = .next t ∧ x = t.status := by
  unfold stepRequest at h
  split at h
  · cases h
    exact ⟨‹_›, rfl⟩
  · cases h
  · cases h

/-- Induction over a run that ends: a relation of a terminal state with itself that a step carries backwards relates the
start of the run to its end, and the call returns the result of the end. -/
theorem run_induction {P : State → State → Prop} (stop : ∀ s, s.status ≠ .running → P s s)
    (go : ∀ s u t, s.status = .running → step s = .next u → P u t → P s t) :
    ∀ {k : Nat} {s t : State} {r : RunResult}, run k s = some (t, r) → P s t ∧ r = t.result := by
  intro k
  induction k with
  | zero =>
    intro s t r h
    by_cases hs : s.status = .running
    · simp [run, hs] at h
    · rw [run_of_terminal hs] at h
      cases h
      exact ⟨stop s hs, rfl⟩
  | succ k ih =>
    intro s t r h
    by_cases hs : s.status = .running
    · simp only [run, hs, if_true] at h
      split at h
      · rename_i u x hu
        obtain ⟨hp, hr⟩ := ih h
        exact ⟨go s u t hs (stepRequest_some hu).1 hp, hr⟩
      · cases h
    · rw [run_of_terminal hs] at h
      cases h
      exact ⟨stop s hs, rfl⟩

@[simp] theorem State.result_outputs (s : State) : s.result.outputs = s.out := rfl
@[simp] theorem State.result_finalTape (s : State) : s.result.finalTape = s.tape.toWords := rfl
@[simp] theorem State.result_status (s : State) : s.result.status = s.status := rfl
@[simp] theorem State.endOfRun_outputs (s : State) : s.endOfRun.outputs = s.out := rfl
@[simp] theorem State.endOfRun_outCur (s : State) : s.endOfRun.outCur = s.outCur := rfl
@[simp] theorem State.endOfRun_finalTape (s : State) : s.endOfRun.finalTape = s.tape.toWords := rfl
@[simp] theorem State.endOfRun_status (s : State) : s.endOfRun.status = s.status := rfl
@[simp] theorem State.endOfRun_record (s : State) : s.endOfRun.record = s.faultRecord := rfl
@[simp] theorem State.endOfRun_pc (s : State) : s.endOfRun.pc = s.pc := rfl
@[simp] theorem State.endOfRun_inCur (s : State) : s.endOfRun.inCur = s.inCur := rfl

@[simp] theorem State.readRegister_pc (s : State) : s.readRegister .pc = (s.pc : Int) := rfl
@[simp] theorem State.readRegister_inCur (s : State) : s.readRegister .inCur = (s.inCur : Int) := rfl
@[simp] theorem State.readRegister_outCur (s : State) : s.readRegister .outCur = (s.outCur : Int) := rfl
@[simp] theorem State.readRegister_status (s : State) : s.readRegister .status = (s.status.code.toNat : Int) := rfl
@[simp] theorem State.readRegister_faultKind (s : State) :
    s.readRegister .faultKind = (s.faultKind.code.toNat : Int) := rfl
@[simp] theorem State.readRegister_faultAccess (s : State) :
    s.readRegister .faultAccess = (s.faultAccess.code.toNat : Int) := rfl
@[simp] theorem State.readRegister_faultPc (s : State) : s.readRegister .faultPc = (s.faultPc : Int) := rfl
@[simp] theorem State.readRegister_faultWord (s : State) : s.readRegister .faultWord = s.faultWord := rfl
@[simp] theorem State.readRegister_faultValue (s : State) : s.readRegister .faultValue = s.faultValue := rfl

/-- The host's repetition takes a step and goes on, for any machine. -/
theorem hostRun_succ (M : Host.Core) {s t : M.State} (h : M.step s = .next t) (k : Nat) :
    M.run (k + 1) s = M.run k t := by
  rw [Host.Core.run, h]

/-- The host's repetition of this machine's step. -/
theorem coreRun_succ {s t : State} (h : step s = .next t) (k : Nat) :
    Host.Core.run Sys2Proof.core (k + 1) s = Host.Core.run Sys2Proof.core k t := hostRun_succ Sys2Proof.core h k

end Sys2Proof.Machine
end

