-- ==== Sys2Proof/Laws/State.lean ====
section
/-! SUPPORT. One lemma per field per state update, true by definition, so that no later proof unfolds an update. -/

namespace Sys2Proof.Machine

section Write

variable (m : Memory) (a : Nat) (v : Int)

@[simp] theorem Memory.size_write : (m.write a v).size = m.size := rfl

end Write

section ConsumeInput

variable (s : State)

@[simp] theorem State.consumeInput_cfg : s.consumeInput.cfg = s.cfg := rfl
@[simp] theorem State.consumeInput_tape : s.consumeInput.tape = s.tape := rfl
@[simp] theorem State.consumeInput_pc : s.consumeInput.pc = s.pc := rfl
@[simp] theorem State.consumeInput_inCur : s.consumeInput.inCur = s.inCur + 1 := rfl
@[simp] theorem State.consumeInput_out : s.consumeInput.out = s.out := rfl
@[simp] theorem State.consumeInput_outCur : s.consumeInput.outCur = s.outCur := rfl
@[simp] theorem State.consumeInput_status : s.consumeInput.status = s.status := rfl
@[simp] theorem State.consumeInput_faultKind : s.consumeInput.faultKind = s.faultKind := rfl
@[simp] theorem State.consumeInput_faultAccess : s.consumeInput.faultAccess = s.faultAccess := rfl
@[simp] theorem State.consumeInput_faultPc : s.consumeInput.faultPc = s.faultPc := rfl
@[simp] theorem State.consumeInput_faultWord : s.consumeInput.faultWord = s.faultWord := rfl
@[simp] theorem State.consumeInput_faultValue : s.consumeInput.faultValue = s.faultValue := rfl

end ConsumeInput

section OutAppend

variable (s : State) (v : Int)

@[simp] theorem State.outAppend_cfg : (s.outAppend v).cfg = s.cfg := rfl
@[simp] theorem State.outAppend_tape : (s.outAppend v).tape = s.tape := rfl
@[simp] theorem State.outAppend_pc : (s.outAppend v).pc = s.pc := rfl
@[simp] theorem State.outAppend_inCur : (s.outAppend v).inCur = s.inCur := rfl
@[simp] theorem State.outAppend_out : (s.outAppend v).out = s.out ++ [v] := rfl
@[simp] theorem State.outAppend_outCur : (s.outAppend v).outCur = s.outCur + 1 := rfl
@[simp] theorem State.outAppend_status : (s.outAppend v).status = s.status := rfl
@[simp] theorem State.outAppend_faultKind : (s.outAppend v).faultKind = s.faultKind := rfl
@[simp] theorem State.outAppend_faultAccess : (s.outAppend v).faultAccess = s.faultAccess := rfl
@[simp] theorem State.outAppend_faultPc : (s.outAppend v).faultPc = s.faultPc := rfl
@[simp] theorem State.outAppend_faultWord : (s.outAppend v).faultWord = s.faultWord := rfl
@[simp] theorem State.outAppend_faultValue : (s.outAppend v).faultValue = s.faultValue := rfl

end OutAppend

section Advance

variable (s : State) (L : Nat)

@[simp] theorem State.advance_cfg : (s.advance L).cfg = s.cfg := rfl
@[simp] theorem State.advance_tape : (s.advance L).tape = s.tape := rfl
@[simp] theorem State.advance_pc : (s.advance L).pc = s.pc + L := rfl
@[simp] theorem State.advance_inCur : (s.advance L).inCur = s.inCur := rfl
@[simp] theorem State.advance_out : (s.advance L).out = s.out := rfl
@[simp] theorem State.advance_outCur : (s.advance L).outCur = s.outCur := rfl
@[simp] theorem State.advance_status : (s.advance L).status = s.status := rfl
@[simp] theorem State.advance_faultKind : (s.advance L).faultKind = s.faultKind := rfl
@[simp] theorem State.advance_faultAccess : (s.advance L).faultAccess = s.faultAccess := rfl
@[simp] theorem State.advance_faultPc : (s.advance L).faultPc = s.faultPc := rfl
@[simp] theorem State.advance_faultWord : (s.advance L).faultWord = s.faultWord := rfl
@[simp] theorem State.advance_faultValue : (s.advance L).faultValue = s.faultValue := rfl

end Advance

section SetPc

variable (s : State) (n : Nat)

@[simp] theorem State.setPc_cfg : (s.setPc n).cfg = s.cfg := rfl
@[simp] theorem State.setPc_tape : (s.setPc n).tape = s.tape := rfl
@[simp] theorem State.setPc_pc : (s.setPc n).pc = n := rfl
@[simp] theorem State.setPc_inCur : (s.setPc n).inCur = s.inCur := rfl
@[simp] theorem State.setPc_out : (s.setPc n).out = s.out := rfl
@[simp] theorem State.setPc_outCur : (s.setPc n).outCur = s.outCur := rfl
@[simp] theorem State.setPc_status : (s.setPc n).status = s.status := rfl
@[simp] theorem State.setPc_faultKind : (s.setPc n).faultKind = s.faultKind := rfl
@[simp] theorem State.setPc_faultAccess : (s.setPc n).faultAccess = s.faultAccess := rfl
@[simp] theorem State.setPc_faultPc : (s.setPc n).faultPc = s.faultPc := rfl
@[simp] theorem State.setPc_faultWord : (s.setPc n).faultWord = s.faultWord := rfl
@[simp] theorem State.setPc_faultValue : (s.setPc n).faultValue = s.faultValue := rfl

end SetPc

section Halt

variable (s : State)

@[simp] theorem State.halt_cfg : s.halt.cfg = s.cfg := rfl
@[simp] theorem State.halt_tape : s.halt.tape = s.tape := rfl
@[simp] theorem State.halt_pc : s.halt.pc = s.pc := rfl
@[simp] theorem State.halt_inCur : s.halt.inCur = s.inCur := rfl
@[simp] theorem State.halt_out : s.halt.out = s.out := rfl
@[simp] theorem State.halt_outCur : s.halt.outCur = s.outCur := rfl
@[simp] theorem State.halt_status : s.halt.status = .halted := rfl
@[simp] theorem State.halt_faultKind : s.halt.faultKind = s.faultKind := rfl
@[simp] theorem State.halt_faultAccess : s.halt.faultAccess = s.faultAccess := rfl
@[simp] theorem State.halt_faultPc : s.halt.faultPc = s.faultPc := rfl
@[simp] theorem State.halt_faultWord : s.halt.faultWord = s.faultWord := rfl
@[simp] theorem State.halt_faultValue : s.halt.faultValue = s.faultValue := rfl

end Halt

section TakeFault

variable (s : State) (f : FaultRequest)

@[simp] theorem State.takeFault_cfg : (s.takeFault f).cfg = s.cfg := rfl
@[simp] theorem State.takeFault_tape : (s.takeFault f).tape = s.tape := rfl
@[simp] theorem State.takeFault_pc : (s.takeFault f).pc = s.pc := rfl
@[simp] theorem State.takeFault_inCur : (s.takeFault f).inCur = s.inCur := rfl
@[simp] theorem State.takeFault_out : (s.takeFault f).out = s.out := rfl
@[simp] theorem State.takeFault_outCur : (s.takeFault f).outCur = s.outCur := rfl
@[simp] theorem State.takeFault_status : (s.takeFault f).status = .faulted := rfl
@[simp] theorem State.takeFault_faultKind : (s.takeFault f).faultKind = f.kind := rfl
@[simp] theorem State.takeFault_faultAccess : (s.takeFault f).faultAccess = f.access := rfl
@[simp] theorem State.takeFault_faultPc : (s.takeFault f).faultPc = s.pc := rfl
@[simp] theorem State.takeFault_faultWord :
    (s.takeFault f).faultWord = if f.access = .fetch then 0 else s.tape.read s.pc := rfl
@[simp] theorem State.takeFault_faultValue : (s.takeFault f).faultValue = f.value := rfl

end TakeFault

end Sys2Proof.Machine
end

