-- ==== Sys2Proof/Laws/Memory.lean ====
section
/-! SUPPORT. The tape: what a read sees after a write, that every operation keeps the canonical form, and that a tape made
from a sequence of words holds that sequence. -/

namespace Sys2Proof.Machine

@[simp] theorem lookupCell_eraseCell_same (a : Nat) (cs : List (Nat × Word)) :
    lookupCell (eraseCell a cs) a = Memory.unlisted := by
  induction cs with
  | nil => rfl
  | cons c cs ih =>
    by_cases h : c.1 = a
    · simp [eraseCell, h, ih]
    · simp [eraseCell, h, lookupCell, ih]

theorem lookupCell_eraseCell_other {a b : Nat} (hab : b ≠ a) (cs : List (Nat × Word)) :
    lookupCell (eraseCell a cs) b = lookupCell cs b := by
  induction cs with
  | nil => rfl
  | cons c cs ih =>
    by_cases h : c.1 = a
    · have : ¬ c.1 = b := fun hb => hab (hb.symm.trans h)
      simp [eraseCell, h, lookupCell, ih, Ne.symm hab]
    · simp [eraseCell, h, lookupCell, ih]

theorem lookupCell_insertCell_other {a b : Nat} (hab : b ≠ a) (v : Int) (cs : List (Nat × Word)) :
    lookupCell (insertCell a v cs) b = lookupCell cs b := by
  induction cs with
  | nil => simp [insertCell, lookupCell, Ne.symm hab]
  | cons c cs ih =>
    by_cases h : a < c.1
    · simp [insertCell, h, lookupCell, Ne.symm hab]
    · simp [insertCell, h, lookupCell, ih]

theorem not_mem_eraseCell (a : Nat) (cs : List (Nat × Word)) : ∀ c ∈ eraseCell a cs, c.1 ≠ a := by
  induction cs with
  | nil => simp [eraseCell]
  | cons c cs ih =>
    by_cases h : c.1 = a
    · simpa [eraseCell, h] using ih
    · simpa [eraseCell, h] using ih

theorem lookupCell_insertCell_same {a : Nat} {cs : List (Nat × Word)} (h : ∀ c ∈ cs, c.1 ≠ a) (v : Int) :
    lookupCell (insertCell a v cs) a = v := by
  induction cs with
  | nil => simp [insertCell, lookupCell]
  | cons c cs ih =>
    obtain ⟨hc, hcs⟩ := List.forall_mem_cons.mp h
    by_cases hlt : a < c.1
    · simp [insertCell, hlt, lookupCell]
    · simp [insertCell, hlt, lookupCell, hc, ih hcs]

/-- A read at the index just written gives the word written (R42), whatever the form of the list. -/
@[simp] theorem Memory.read_write_same (m : Memory) (a : Nat) (v : Int) : (m.write a v).read a = v := by
  by_cases h : v = Memory.unlisted
  · simp [Memory.read, Memory.write, h]
  · simp [Memory.read, Memory.write, h, lookupCell_insertCell_same (not_mem_eraseCell a m.cells)]

/-- A write changes no other word (R42), whatever the form of the list. -/
theorem Memory.read_write_other (m : Memory) {a b : Nat} (hab : b ≠ a) (v : Int) :
    (m.write a v).read b = m.read b := by
  by_cases h : v = Memory.unlisted
  · simp [Memory.read, Memory.write, h, lookupCell_eraseCell_other hab]
  · simp [Memory.read, Memory.write, h, lookupCell_insertCell_other hab, lookupCell_eraseCell_other hab]

theorem mem_eraseCell {a : Nat} {cs : List (Nat × Word)} {c : Nat × Word} (h : c ∈ eraseCell a cs) : c ∈ cs := by
  induction cs with
  | nil => simp [eraseCell] at h
  | cons d cs ih =>
    by_cases hd : d.1 = a
    · rw [eraseCell, if_pos hd] at h
      exact List.mem_cons_of_mem _ (ih h)
    · rw [eraseCell, if_neg hd] at h
      obtain rfl | h := List.mem_cons.mp h
      · exact List.mem_cons_self
      · exact List.mem_cons_of_mem _ (ih h)

theorem mem_insertCell {a : Nat} {v : Int} {cs : List (Nat × Word)} {c : Nat × Word}
    (h : c ∈ insertCell a v cs) : c = (a, v) ∨ c ∈ cs := by
  induction cs with
  | nil => exact .inl (by simpa [insertCell] using h)
  | cons d cs ih =>
    by_cases hd : a < d.1
    · rw [insertCell, if_pos hd] at h
      simpa using h
    · rw [insertCell, if_neg hd] at h
      obtain rfl | h := List.mem_cons.mp h
      · exact .inr List.mem_cons_self
      · exact (ih h).imp_right (List.mem_cons_of_mem _)

theorem pairwise_eraseCell (a : Nat) {cs : List (Nat × Word)} (h : cs.Pairwise (fun c d => c.1 < d.1)) :
    (eraseCell a cs).Pairwise (fun c d => c.1 < d.1) := by
  induction cs with
  | nil => exact h
  | cons c cs ih =>
    obtain ⟨hc, hcs⟩ := List.pairwise_cons.mp h
    by_cases hd : c.1 = a
    · simpa [eraseCell, hd] using ih hcs
    · rw [eraseCell, if_neg hd]
      exact List.pairwise_cons.mpr ⟨fun d hdm => hc d (mem_eraseCell hdm), ih hcs⟩

theorem pairwise_insertCell {a : Nat} {v : Int} {cs : List (Nat × Word)} (hne : ∀ c ∈ cs, c.1 ≠ a)
    (h : cs.Pairwise (fun c d => c.1 < d.1)) : (insertCell a v cs).Pairwise (fun c d => c.1 < d.1) := by
  induction cs with
  | nil => simp [insertCell]
  | cons c cs ih =>
    obtain ⟨hc, hcs⟩ := List.pairwise_cons.mp h
    obtain ⟨hca, hne⟩ := List.forall_mem_cons.mp hne
    by_cases hlt : a < c.1
    · rw [insertCell, if_pos hlt]
      refine List.pairwise_cons.mpr ⟨fun d hd => ?_, h⟩
      obtain rfl | hd := List.mem_cons.mp hd
      · exact hlt
      · exact hlt.trans (hc d hd)
    · rw [insertCell, if_neg hlt]
      refine List.pairwise_cons.mpr ⟨fun d hd => ?_, ih hne hcs⟩
      obtain rfl | hd := mem_insertCell hd
      · exact lt_of_le_of_ne (not_lt.mp hlt) hca
      · exact hc d hd

theorem Memory.mem_cells_write {m : Memory} {a : Nat} {v : Int} {c : Nat × Word}
    (h : c ∈ (m.write a v).cells) : (c = (a, v) ∧ v ≠ Memory.unlisted) ∨ c ∈ m.cells := by
  by_cases hv : v = Memory.unlisted
  · rw [Memory.write, if_pos hv] at h
    exact .inr (mem_eraseCell h)
  · rw [Memory.write, if_neg hv] at h
    exact (mem_insertCell h).imp (fun hc => ⟨hc, hv⟩) mem_eraseCell

/-- A write inside the tape keeps the canonical form. -/
theorem Memory.wf_write {m : Memory} (h : m.wf) {a : Nat} (ha : a < m.size) (v : Int) : (m.write a v).wf := by
  constructor
  · by_cases hv : v = Memory.unlisted
    · simpa [Memory.write, hv] using pairwise_eraseCell a h.1
    · simpa [Memory.write, hv] using
        pairwise_insertCell (not_mem_eraseCell a m.cells) (pairwise_eraseCell a h.1)
  · intro c hc
    obtain ⟨rfl, hv⟩ | hc := Memory.mem_cells_write hc
    · exact ⟨ha, hv⟩
    · exact h.2 c hc

/-- The tape at reset is in canonical form. -/
theorem reset_tape_wf : State.reset.tape.wf := by decide

/-- `MemWrite` keeps the canonical form. -/
theorem memWrite_wf {s t : State} {a : Int} {v : Int} (hs : s.tape.wf) (h : memWrite s a v = .ok t) :
    t.tape.wf := by
  unfold memWrite at h
  split at h
  · cases h
  · cases h
    exact Memory.wf_write hs (by omega) v

theorem cellsFrom_key_ge {i : Nat} {ws : List Word} : ∀ c ∈ cellsFrom i ws, i ≤ c.1 := by
  induction ws generalizing i with
  | nil => simp [cellsFrom]
  | cons v vs ih =>
    intro c hc
    by_cases hv : v = Memory.unlisted
    · rw [cellsFrom, if_pos hv] at hc
      exact (Nat.le_succ i).trans (ih c hc)
    · rw [cellsFrom, if_neg hv] at hc
      obtain rfl | hc := List.mem_cons.mp hc
      · exact le_rfl
      · exact (Nat.le_succ i).trans (ih c hc)

theorem cellsFrom_key_lt {i : Nat} {ws : List Word} : ∀ c ∈ cellsFrom i ws, c.1 < i + ws.length := by
  induction ws generalizing i with
  | nil => simp [cellsFrom]
  | cons v vs ih =>
    intro c hc
    simp only [List.length_cons]
    by_cases hv : v = Memory.unlisted
    · rw [cellsFrom, if_pos hv] at hc
      have := ih c hc
      omega
    · rw [cellsFrom, if_neg hv] at hc
      obtain rfl | hc := List.mem_cons.mp hc
      · simp
      · have := ih c hc
        omega

theorem cellsFrom_mem {i : Nat} {ws : List Word} :
    ∀ c ∈ cellsFrom i ws, c.2 ∈ ws ∧ c.2 ≠ Memory.unlisted := by
  induction ws generalizing i with
  | nil => simp [cellsFrom]
  | cons v vs ih =>
    intro c hc
    by_cases hv : v = Memory.unlisted
    · rw [cellsFrom, if_pos hv] at hc
      exact (ih c hc).imp_left (List.mem_cons_of_mem _)
    · rw [cellsFrom, if_neg hv] at hc
      obtain rfl | hc := List.mem_cons.mp hc
      · exact ⟨List.mem_cons_self, hv⟩
      · exact (ih c hc).imp_left (List.mem_cons_of_mem _)

theorem pairwise_cellsFrom (i : Nat) (ws : List Word) :
    (cellsFrom i ws).Pairwise (fun c d => c.1 < d.1) := by
  induction ws generalizing i with
  | nil => simp [cellsFrom]
  | cons v vs ih =>
    by_cases hv : v = Memory.unlisted
    · simpa [cellsFrom, hv] using ih (i + 1)
    · rw [cellsFrom, if_neg hv]
      exact List.pairwise_cons.mpr ⟨fun d hd => cellsFrom_key_ge d hd, ih (i + 1)⟩

/-- A tape made from a sequence of words is in canonical form. -/
theorem Memory.wf_ofWords (ws : List Word) : (Memory.ofWords ws).wf := by
  refine ⟨pairwise_cellsFrom 0 ws, fun c hc => ⟨?_, (cellsFrom_mem c hc).2⟩⟩
  simpa [Memory.ofWords] using cellsFrom_key_lt c hc

theorem lookupCell_of_key_lt {cs : List (Nat × Word)} {a : Nat} (h : ∀ c ∈ cs, a < c.1) :
    lookupCell cs a = Memory.unlisted := by
  induction cs with
  | nil => rfl
  | cons c cs ih =>
    obtain ⟨hc, hcs⟩ := List.forall_mem_cons.mp h
    simp [lookupCell, Nat.ne_of_gt hc, ih hcs]

theorem lookupCell_cellsFrom (i : Nat) (ws : List Word) (k : Nat) :
    lookupCell (cellsFrom i ws) (i + k) = ws.getD k Memory.unlisted := by
  induction ws generalizing i k with
  | nil => simp [cellsFrom, lookupCell]
  | cons v vs ih =>
    by_cases hv : v = Memory.unlisted
    · cases k with
      | zero =>
        simp [cellsFrom, hv, lookupCell_of_key_lt (a := i) (fun c hc => (cellsFrom_key_ge (i := i + 1) c hc))]
      | succ k =>
        have := ih (i + 1) k
        simpa [cellsFrom, hv, Nat.add_assoc, Nat.add_comm 1 k] using this
    · cases k with
      | zero => simp [cellsFrom, hv, lookupCell]
      | succ k =>
        have := ih (i + 1) k
        simpa [cellsFrom, hv, lookupCell, Nat.add_assoc, Nat.add_comm 1 k] using this

/-- A tape made from a sequence of words holds that sequence. -/
theorem Memory.read_ofWords (ws : List Word) (k : Nat) :
    (Memory.ofWords ws).read k = ws.getD k Memory.unlisted := by
  simpa [Memory.read, Memory.ofWords] using lookupCell_cellsFrom 0 ws k

/-- Placing words keeps the size. -/
@[simp] theorem Memory.size_writeFrom (m : Memory) (a : Nat) (ws : List Word) :
    (m.writeFrom a ws).size = m.size := by
  induction ws generalizing m a with
  | nil => rfl
  | cons v vs ih => simp [Memory.writeFrom, ih]

/-- Placing words leaves the words before them. -/
theorem Memory.read_writeFrom_of_lt {m : Memory} {a b : Nat} {ws : List Word} (h : b < a) :
    (m.writeFrom a ws).read b = m.read b := by
  induction ws generalizing m a with
  | nil => rfl
  | cons v vs ih => rw [Memory.writeFrom, ih (by omega), Memory.read_write_other _ (by omega)]

/-- Placing words inside the tape keeps the canonical form. -/
theorem Memory.wf_writeFrom {m : Memory} (h : m.wf) {a : Nat} {ws : List Word} (ha : a + ws.length ≤ m.size) :
    (m.writeFrom a ws).wf := by
  induction ws generalizing m a with
  | nil => exact h
  | cons v vs ih =>
    simp only [List.length_cons] at ha
    exact ih (Memory.wf_write h (by omega) v) (by simp; omega)

/-- The tape under a placed instruction is in canonical form. -/
theorem State.wf_placeAtPc {s : State} (h : s.tape.wf) (ws : List Word) : (s.placeAtPc ws).tape.wf := by
  refine Memory.wf_writeFrom (m := { s.tape with size := max s.tape.size (s.pc + ws.length) })
    ⟨h.1, fun c hc => ⟨?_, (h.2 c hc).2⟩⟩ (le_max_right _ _)
  exact lt_of_lt_of_le (h.2 c hc).1 (le_max_left _ _)

/-- The tape of a constructed state is in canonical form. -/
theorem State.wf_initial (cfg : Config) (ws : List Word) : (State.initial cfg ws).tape.wf := Memory.wf_ofWords ws

end Sys2Proof.Machine
end

