-- ==== Sys2Proof/Laws/Ops.lean ====
section
/-! SUPPORT. What each shared operation can do, said once: the provers cite these instead of unfolding the operations. -/

namespace Sys2Proof.Machine

/-- What a bind of two checked operations gives, when it gives a value. -/
theorem except_bind_ok {α β : Type} {x : Except FaultRequest α} {f : α → Except FaultRequest β} {b : β} :
    (x >>= f) = .ok b ↔ ∃ a, x = .ok a ∧ f a = .ok b := by
  cases x <;> simp [bind, Except.bind]

/-- What a bind of two checked operations gives, when it faults: the first fault. -/
theorem except_bind_error {α β : Type} {x : Except FaultRequest α} {f : α → Except FaultRequest β}
    {e : FaultRequest} : (x >>= f) = .error e ↔ x = .error e ∨ ∃ a, x = .ok a ∧ f a = .error e := by
  cases x <;> simp [bind, Except.bind]

@[simp] theorem ok_bind {α β : Type} (a : α) (f : α → Except FaultRequest β) :
    ((Except.ok a : Except FaultRequest α) >>= f) = f a := rfl

@[simp] theorem error_bind {α β : Type} (e : FaultRequest) (f : α → Except FaultRequest β) :
    ((Except.error e : Except FaultRequest α) >>= f) = .error e := rfl

@[simp] theorem commit_ok (s t : State) : commit s (.ok t) = .next t := rfl

@[simp] theorem commit_error (s : State) (f : FaultRequest) : commit s (.error f) = .next (s.takeFault f) := rfl

/-- Commit answers a next state: the computed one, or fault entry on the state before the step (R155). -/
theorem commit_next {s t : State} {r : Except FaultRequest State} :
    commit s r = .next t ↔ r = .ok t ∨ ∃ f, r = .error f ∧ t = s.takeFault f := by
  cases r <;> simp [commit, eq_comm]

theorem memRead_ok {acc : FaultAccess} {s : State} {a : Int} {v : Int} :
    memRead acc s a = .ok v ↔ 0 ≤ a ∧ a < (s.tape.size : Int) ∧ v = s.tape.read a.toNat := by
  unfold memRead
  split
  · simp only [false_iff, reduceCtorEq]
    omega
  · simp only [Except.ok.injEq, eq_comm (a := v)]
    constructor
    · intro h
      exact ⟨by omega, by omega, h⟩
    · exact fun h => h.2.2

theorem memRead_error {acc : FaultAccess} {s : State} {a : Int} {f : FaultRequest} :
    memRead acc s a = .error f ↔ OutOfTape s a ∧ f = ⟨.invalidAddress, acc, a⟩ := by
  unfold memRead
  split <;> simp_all [eq_comm]

theorem memWrite_ok {s t : State} {a : Int} {v : Int} :
    memWrite s a v = .ok t ↔
      0 ≤ a ∧ a < (s.tape.size : Int) ∧ t = { s with tape := s.tape.write a.toNat v } := by
  unfold memWrite
  split
  · simp only [false_iff, reduceCtorEq]
    omega
  · simp only [Except.ok.injEq, eq_comm (a := t)]
    constructor
    · intro h
      exact ⟨by omega, by omega, h⟩
    · exact fun h => h.2.2

theorem memWrite_error {s : State} {a : Int} {v : Int} {f : FaultRequest} :
    memWrite s a v = .error f ↔ OutOfTape s a ∧ f = ⟨.invalidAddress, .write, a⟩ := by
  unfold memWrite
  split <;> simp_all [eq_comm]

theorem inRead_ok {s : State} {v : Int} : inRead s = .ok v ↔ s.cfg.input[s.inCur]? = some v := by
  unfold inRead
  split <;> simp_all

theorem inRead_error {s : State} {f : FaultRequest} :
    inRead s = .error f ↔ s.cfg.inputLen ≤ s.inCur ∧ f = ⟨.inputExhausted, .none, (s.inCur : Int)⟩ := by
  unfold inRead
  split
  · rename_i v h
    obtain ⟨hlt, -⟩ := List.getElem?_eq_some_iff.mp h
    simp only [false_iff, reduceCtorEq, Config.inputLen]
    omega
  · rename_i h
    have := List.getElem?_eq_none_iff.mp h
    simp only [Except.error.injEq, Config.inputLen, eq_comm (a := f)]
    exact ⟨fun h => ⟨this, h⟩, fun h => h.2⟩

theorem jumpTo_ok {s t : State} {v : Int} :
    s.jumpTo v = .ok t ↔ 0 ≤ v ∧ v < (s.tape.size : Int) ∧ t = s.setPc v.toNat := by
  unfold State.jumpTo
  split
  · simp only [false_iff, reduceCtorEq]
    omega
  · simp only [Except.ok.injEq, eq_comm (a := t)]
    constructor
    · intro h
      exact ⟨by omega, by omega, h⟩
    · exact fun h => h.2.2

theorem jumpTo_error {s : State} {v : Int} {f : FaultRequest} :
    s.jumpTo v = .error f ↔ OutOfTape s v ∧ f = ⟨.invalidAddress, .jump, v⟩ := by
  unfold State.jumpTo
  split <;> simp_all [eq_comm]

theorem argRead_ok {s : State} {k : Nat} {v : Int} :
    argRead s k = .ok v ↔ s.pc + k < s.tape.size ∧ v = s.tape.read (s.pc + k) := by
  unfold argRead
  rw [memRead_ok, Int.toNat_natCast]
  constructor
  · rintro ⟨-, h, hv⟩
    exact ⟨by omega, hv⟩
  · rintro ⟨h, hv⟩
    exact ⟨by omega, by omega, hv⟩

theorem argRead_error {s : State} {k : Nat} {f : FaultRequest} :
    argRead s k = .error f ↔
      s.tape.size ≤ s.pc + k ∧ f = ⟨.invalidAddress, .arg, ((s.pc + k : Nat) : Int)⟩ := by
  unfold argRead
  rw [memRead_error]
  constructor
  · rintro ⟨h, hf⟩
    exact ⟨by omega, hf⟩
  · rintro ⟨h, hf⟩
    exact ⟨by omega, hf⟩

/-- A value operand that resolves has its raw word on the tape, and its value is the word its mode selects (R81). -/
theorem resolveValue_ok {s : State} {k : Nat} {m : Mode} {v : Int} :
    resolveValue s k m = .ok v ↔
      s.pc + k < s.tape.size ∧
      ((m = .immediate ∧ v = s.tape.read (s.pc + k)) ∨
       (m = .position ∧ (0 : Int) ≤ s.tape.read (s.pc + k) ∧
         (s.tape.read (s.pc + k) : Int) < (s.tape.size : Int) ∧
         v = s.tape.read (s.tape.read (s.pc + k)).toNat)) := by
  cases m with
  | position =>
    unfold resolveValue
    rw [except_bind_ok]
    simp only [argRead_ok, memRead_ok]
    constructor
    · rintro ⟨raw, ⟨hk, rfl⟩, h0, h1, hv⟩
      exact ⟨hk, .inr ⟨by trivial, h0, h1, hv⟩⟩
    · rintro ⟨hk, ⟨h, -⟩ | ⟨-, h0, h1, hv⟩⟩
      · cases h
      · exact ⟨_, ⟨hk, by rfl⟩, h0, h1, hv⟩
  | immediate => simp [resolveValue, argRead_ok]
  | other d => simp [resolveValue]

/-- Why a value operand does not resolve, in the order of the checks (R81, R177). -/
theorem resolveValue_error {s : State} {k : Nat} {m : Mode} {f : FaultRequest} :
    resolveValue s k m = .error f ↔
      (∃ d, m = .other d ∧ f = ⟨.invalidMode, .none, d⟩) ∨
      ((m = .position ∨ m = .immediate) ∧ s.tape.size ≤ s.pc + k ∧
        f = ⟨.invalidAddress, .arg, ((s.pc + k : Nat) : Int)⟩) ∨
      (m = .position ∧ s.pc + k < s.tape.size ∧ OutOfTape s (s.tape.read (s.pc + k)) ∧
        f = ⟨.invalidAddress, .read, s.tape.read (s.pc + k)⟩) := by
  cases m with
  | position =>
    simp only [resolveValue, except_bind_error, argRead_error, argRead_ok, memRead_error]
    constructor
    · rintro (h | ⟨raw, ⟨hk, rfl⟩, ho, hf⟩)
      · exact .inr (.inl ⟨.inl (by trivial), h⟩)
      · exact .inr (.inr ⟨by trivial, hk, ho, hf⟩)
    · rintro (⟨d, hd, -⟩ | ⟨-, h⟩ | ⟨-, hk, ho, hf⟩)
      · cases hd
      · exact .inl h
      · exact .inr ⟨_, ⟨hk, rfl⟩, ho, hf⟩
  | immediate => simp [resolveValue, argRead_error]
  | other d => simp [resolveValue, eq_comm]

/-- The overflow decision (R102). -/
theorem narrow_ok {c : Config} {r : Int} {v : Int} :
    narrow c r = .ok v ↔
      (Fits c.wordBits r ∧ v = r) ∨ (¬ Fits c.wordBits r ∧ c.overflowMode = .wrap ∧ v = wrap c.wordBits r) := by
  unfold narrow
  split
  · rename_i h
    rw [Except.ok.injEq]
    constructor
    · exact fun hv => .inl ⟨h, hv.symm⟩
    · rintro (⟨-, hv⟩ | ⟨hn, -⟩)
      · exact hv.symm
      · exact absurd h hn
  · rename_i h
    cases c.overflowMode <;> simp [h, eq_comm]

theorem narrow_error {c : Config} {r : Int} {f : FaultRequest} :
    narrow c r = .error f ↔
      ¬ Fits c.wordBits r ∧ c.overflowMode = .fault ∧ f = ⟨.arithmeticOverflow, .none, 0⟩ := by
  unfold narrow
  split
  · simp_all
  · cases c.overflowMode <;> simp_all [eq_comm]

/-- What an F3 instruction writes when it does not fault: one tape word and the advance. -/
theorem storeBinary_ok {m : Modes} {s t : State} {f : Int → Int → Except FaultRequest Int} :
    storeBinary m s f = .ok t ↔
      ∃ a b d r, resolveValue s 1 m.mode1 = .ok a ∧ resolveValue s 2 m.mode2 = .ok b ∧
        resolveAddress s 3 = .ok d ∧ f a b = .ok r ∧ 0 ≤ d ∧ d < (s.tape.size : Int) ∧
        t = { s with tape := s.tape.write d.toNat r, pc := s.pc + 4 } := by
  simp only [storeBinary, except_bind_ok, memWrite_ok]
  constructor
  · rintro ⟨a, ha, b, hb, d, hd, r, hr, u, ⟨h0, h1, rfl⟩, hu⟩
    cases hu
    exact ⟨a, b, d, r, ha, hb, hd, hr, h0, h1, rfl⟩
  · rintro ⟨a, b, d, r, ha, hb, hd, hr, h0, h1, rfl⟩
    exact ⟨a, ha, b, hb, d, hd, r, hr, _, ⟨h0, h1, rfl⟩, rfl⟩

/-- Why an F3 instruction faults, in the order of the checks (R156). -/
theorem storeBinary_error {m : Modes} {s : State} {f : Int → Int → Except FaultRequest Int} {e : FaultRequest} :
    storeBinary m s f = .error e ↔
      resolveValue s 1 m.mode1 = .error e ∨
      ∃ a, resolveValue s 1 m.mode1 = .ok a ∧
        (resolveValue s 2 m.mode2 = .error e ∨
         ∃ b, resolveValue s 2 m.mode2 = .ok b ∧
          (resolveAddress s 3 = .error e ∨
           ∃ d, resolveAddress s 3 = .ok d ∧
            (f a b = .error e ∨ ∃ r, f a b = .ok r ∧ memWrite s d r = .error e))) := by
  simp only [storeBinary, except_bind_error]
  simp [pure, Except.pure]

/-- What a jump writes when it does not fault: `PC`, with a target on the tape, or the advance by 3. -/
theorem jumpWhen_ok {jumps : Int → Bool} {m : Modes} {s t : State} :
    jumpWhen jumps m s = .ok t ↔
      (∃ c v, resolveValue s 1 m.mode1 = .ok c ∧ jumps c = true ∧ resolveValue s 2 m.mode2 = .ok v ∧
        0 ≤ v ∧ v < (s.tape.size : Int) ∧ t = { s with pc := v.toNat }) ∨
      (∃ c, resolveValue s 1 m.mode1 = .ok c ∧ jumps c = false ∧ t = { s with pc := s.pc + 3 }) := by
  rw [jumpWhen, except_bind_ok]
  constructor
  · rintro ⟨c, hc, h⟩
    cases hj : jumps c with
    | true =>
      simp only [hj, if_true, except_bind_ok, jumpTo_ok] at h
      obtain ⟨v, hv, h0, h1, rfl⟩ := h
      exact .inl ⟨c, v, hc, hj, hv, h0, h1, rfl⟩
    | false =>
      simp only [hj] at h
      cases h
      exact .inr ⟨c, hc, hj, rfl⟩
  · rintro (⟨c, v, hc, hj, hv, h0, h1, rfl⟩ | ⟨c, hc, hj, rfl⟩)
    · exact ⟨c, hc, by simp only [hj, if_true, hv, ok_bind, jumpTo_ok]; exact ⟨h0, h1, rfl⟩⟩
    · exact ⟨c, hc, by simp only [hj]; rfl⟩

/-- Why a jump faults, in the order of the checks (R156). -/
theorem jumpWhen_error {jumps : Int → Bool} {m : Modes} {s : State} {e : FaultRequest} :
    jumpWhen jumps m s = .error e ↔
      resolveValue s 1 m.mode1 = .error e ∨
      ∃ c, resolveValue s 1 m.mode1 = .ok c ∧ jumps c = true ∧
        (resolveValue s 2 m.mode2 = .error e ∨ ∃ v, resolveValue s 2 m.mode2 = .ok v ∧ s.jumpTo v = .error e) := by
  rw [jumpWhen, except_bind_error]
  refine or_congr_right (exists_congr fun c => and_congr_right fun _ => ?_)
  cases hj : jumps c with
  | true => simp only [if_true, except_bind_error, true_and]
  | false => simp [pure, Except.pure]

end Sys2Proof.Machine
end

