-- ==== Sys2Proof/Laws/PerInstr.lean ====
section
/-! SUPPORT. A statement made instruction by instruction: the shape of an instruction's word. -/

namespace Sys2Proof.Laws.WordShape

/-- The word of a well-formed instruction is a decimal number of at most five digits whose low two digits are the
instruction's opcode (R60, R61), and the instruction's length is its format's (R65). -/
def Statement (i : Instr) : Prop :=
  i.WellFormed → 0 ≤ encode i ∧ encode i ≤ 99999 ∧ opcodeOf (encode i) = i.opcode ∧ 1 ≤ i.length ∧ i.length ≤ 4

/-- The common arithmetic: three digits above an opcode of at most two digits. -/
theorem of_opcode {i : Instr} (h0 : 0 ≤ i.opcode) (h99 : i.opcode ≤ 99) (h1 : 1 ≤ i.length) (h4 : i.length ≤ 4) :
    Statement i := by
  rintro ⟨w1, w2, w3⟩
  have d1 := Mode.digit_bounds w1
  have d2 := Mode.digit_bounds w2
  have d3 := Mode.digit_bounds w3
  have hpos : 0 ≤ encode i := by
    unfold encode
    omega
  refine ⟨hpos, ?_, ?_, h1, h4⟩
  · unfold encode
    omega
  · rw [opcodeOf_of_nonneg hpos]
    unfold encode
    omega

theorem add (m : Modes) : Statement (.add m) :=
  of_opcode (by simp [Instr.opcode]) (by simp [Instr.opcode])
  (by simp [Instr.length, Instr.format, Format.length]) (by simp [Instr.length, Instr.format, Format.length])
theorem mul (m : Modes) : Statement (.mul m) :=
  of_opcode (by simp [Instr.opcode]) (by simp [Instr.opcode])
  (by simp [Instr.length, Instr.format, Format.length]) (by simp [Instr.length, Instr.format, Format.length])
theorem inp (m : Modes) : Statement (.inp m) :=
  of_opcode (by simp [Instr.opcode]) (by simp [Instr.opcode])
  (by simp [Instr.length, Instr.format, Format.length]) (by simp [Instr.length, Instr.format, Format.length])
theorem out (m : Modes) : Statement (.out m) :=
  of_opcode (by simp [Instr.opcode]) (by simp [Instr.opcode])
  (by simp [Instr.length, Instr.format, Format.length]) (by simp [Instr.length, Instr.format, Format.length])
theorem jt (m : Modes) : Statement (.jt m) :=
  of_opcode (by simp [Instr.opcode]) (by simp [Instr.opcode])
  (by simp [Instr.length, Instr.format, Format.length]) (by simp [Instr.length, Instr.format, Format.length])
theorem jf (m : Modes) : Statement (.jf m) :=
  of_opcode (by simp [Instr.opcode]) (by simp [Instr.opcode])
  (by simp [Instr.length, Instr.format, Format.length]) (by simp [Instr.length, Instr.format, Format.length])
theorem lt (m : Modes) : Statement (.lt m) :=
  of_opcode (by simp [Instr.opcode]) (by simp [Instr.opcode])
  (by simp [Instr.length, Instr.format, Format.length]) (by simp [Instr.length, Instr.format, Format.length])
theorem eq (m : Modes) : Statement (.eq m) :=
  of_opcode (by simp [Instr.opcode]) (by simp [Instr.opcode])
  (by simp [Instr.length, Instr.format, Format.length]) (by simp [Instr.length, Instr.format, Format.length])
theorem halt (m : Modes) : Statement (.halt m) :=
  of_opcode (by simp [Instr.opcode]) (by simp [Instr.opcode])
  (by simp [Instr.length, Instr.format, Format.length]) (by simp [Instr.length, Instr.format, Format.length])

end Sys2Proof.Laws.WordShape
end

