-- ==== Sys2Proof/Laws/Step.lean ====
section
/-! SUPPORT. What an instruction and a step can do, said once. -/

namespace Sys2Proof.Machine

/-- The writes an instruction commits when it does not fault (R155), by family. -/
inductive Commits (s : State) : Instr → State → Prop where
  | add {m : Modes} {a b d r : Int} (ha : resolveValue s 1 m.mode1 = .ok a) (hb : resolveValue s 2 m.mode2 = .ok b)
      (hd : resolveAddress s 3 = .ok d) (hr : narrow s.cfg (a + b) = .ok r) (h0 : 0 ≤ d)
      (h1 : d < (s.tape.size : Int)) :
      Commits s (.add m) { s with tape := s.tape.write d.toNat r, pc := s.pc + 4 }
  | mul {m : Modes} {a b d r : Int} (ha : resolveValue s 1 m.mode1 = .ok a) (hb : resolveValue s 2 m.mode2 = .ok b)
      (hd : resolveAddress s 3 = .ok d) (hr : narrow s.cfg (a * b) = .ok r) (h0 : 0 ≤ d)
      (h1 : d < (s.tape.size : Int)) :
      Commits s (.mul m) { s with tape := s.tape.write d.toNat r, pc := s.pc + 4 }
  | inp {m : Modes} {d v : Int} (hd : resolveAddress s 1 = .ok d) (hv : s.cfg.input[s.inCur]? = some v)
      (h0 : 0 ≤ d) (h1 : d < (s.tape.size : Int)) :
      Commits s (.inp m) { s with tape := s.tape.write d.toNat v, inCur := s.inCur + 1, pc := s.pc + 2 }
  | out {m : Modes} {d v : Int} (hd : resolveAddress s 1 = .ok d) (hv : memRead .read s d = .ok v) :
      Commits s (.out m) { s with out := s.out ++ [v], outCur := s.outCur + 1, pc := s.pc + 2 }
  | jtTaken {m : Modes} {c v : Int} (hc : resolveValue s 1 m.mode1 = .ok c) (hj : c ≠ 0)
      (hv : resolveValue s 2 m.mode2 = .ok v) (h0 : 0 ≤ v) (h1 : v < (s.tape.size : Int)) :
      Commits s (.jt m) { s with pc := v.toNat }
  | jtNotTaken {m : Modes} (hc : resolveValue s 1 m.mode1 = .ok 0) : Commits s (.jt m) { s with pc := s.pc + 3 }
  | jfTaken {m : Modes} {v : Int} (hc : resolveValue s 1 m.mode1 = .ok 0)
      (hv : resolveValue s 2 m.mode2 = .ok v) (h0 : 0 ≤ v) (h1 : v < (s.tape.size : Int)) :
      Commits s (.jf m) { s with pc := v.toNat }
  | jfNotTaken {m : Modes} {c : Int} (hc : resolveValue s 1 m.mode1 = .ok c) (hj : c ≠ 0) :
      Commits s (.jf m) { s with pc := s.pc + 3 }
  | lt {m : Modes} {a b d : Int} (ha : resolveValue s 1 m.mode1 = .ok a) (hb : resolveValue s 2 m.mode2 = .ok b)
      (hd : resolveAddress s 3 = .ok d) (h0 : 0 ≤ d) (h1 : d < (s.tape.size : Int)) :
      Commits s (.lt m) { s with tape := s.tape.write d.toNat (lessWord a b), pc := s.pc + 4 }
  | eq {m : Modes} {a b d : Int} (ha : resolveValue s 1 m.mode1 = .ok a) (hb : resolveValue s 2 m.mode2 = .ok b)
      (hd : resolveAddress s 3 = .ok d) (h0 : 0 ≤ d) (h1 : d < (s.tape.size : Int)) :
      Commits s (.eq m) { s with tape := s.tape.write d.toNat (equalWord a b), pc := s.pc + 4 }
  | halt {m : Modes} : Commits s (.halt m) { s with status := .halted }

/-- The faults an instruction can raise (R156, R177), by the operation that raises them. -/
inductive Raises (s : State) : Instr → FaultRequest → Prop where
  | operand1 {i : Instr} {f : FaultRequest} (hc : consultsMode1 i = true)
      (h : resolveValue s 1 i.modes.mode1 = .error f) : Raises s i f
  | operand2 {i : Instr} {v : Int} {f : FaultRequest} (h1 : resolveValue s 1 i.modes.mode1 = .ok v)
      (hc : consultsMode2 i v = true) (h : resolveValue s 2 i.modes.mode2 = .error f) : Raises s i f
  | address {i : Instr} {k : Nat} {f : FaultRequest} (hk : k ≤ 3) (h : resolveAddress s k = .error f) :
      Raises s i f
  | addOverflow {m : Modes} {a b : Int} {f : FaultRequest} (ha : resolveValue s 1 m.mode1 = .ok a)
      (hb : resolveValue s 2 m.mode2 = .ok b) (h : narrow s.cfg (a + b) = .error f) : Raises s (.add m) f
  | mulOverflow {m : Modes} {a b : Int} {f : FaultRequest} (ha : resolveValue s 1 m.mode1 = .ok a)
      (hb : resolveValue s 2 m.mode2 = .ok b) (h : narrow s.cfg (a * b) = .error f) : Raises s (.mul m) f
  | input {m : Modes} {f : FaultRequest} (h : inRead s = .error f) : Raises s (.inp m) f
  | write {i : Instr} {k : Nat} {d v : Int} {f : FaultRequest} (hd : resolveAddress s k = .ok d)
      (h : memWrite s d v = .error f) : Raises s i f
  | read {m : Modes} {d : Int} {f : FaultRequest} (hd : resolveAddress s 1 = .ok d)
      (h : memRead .read s d = .error f) : Raises s (.out m) f
  | jump {i : Instr} {v : Int} {f : FaultRequest} (hv : resolveValue s 2 i.modes.mode2 = .ok v)
      (h : s.jumpTo v = .error f) : Raises s i f

/-- The writes of an instruction, or its first fault. -/
def attempt (i : Instr) (s : State) : Except FaultRequest State :=
  match i with
  | .add m => storeBinary m s fun a b => narrow s.cfg (a + b)
  | .mul m => storeBinary m s fun a b => narrow s.cfg (a * b)
  | .inp _ => do
    let d ← resolveAddress s 1
    let v ← inRead s
    let t ← memWrite s d v
    pure (t.consumeInput.advance 2)
  | .out _ => do
    let a ← resolveAddress s 1
    let v ← memRead .read s a
    pure ((s.outAppend v).advance 2)
  | .jt m => jumpWhen jumpsIfTrue m s
  | .jf m => jumpWhen jumpsIfFalse m s
  | .lt m => storeBinary m s fun a b => .ok (lessWord a b)
  | .eq m => storeBinary m s fun a b => .ok (equalWord a b)
  | .halt _ => .ok s.halt

/-- Every instruction commits its attempt (R155). -/
theorem exec_eq_commit (i : Instr) (s : State) : exec i s = commit s (attempt i s) := by
  cases i <;> rfl

theorem exec_of_ok {i : Instr} {s t : State} (h : attempt i s = .ok t) : exec i s = .next t := by
  rw [exec_eq_commit, h, commit_ok]

theorem exec_of_error {i : Instr} {s : State} {f : FaultRequest} (h : attempt i s = .error f) :
    exec i s = .next (s.takeFault f) := by
  rw [exec_eq_commit, h, commit_error]

/-- An instruction that does not fault makes its own writes. -/
theorem commits_of_ok {i : Instr} {s t : State} (h : attempt i s = .ok t) : Commits s i t := by
  cases i with
  | add m =>
    obtain ⟨a, b, d, r, ha, hb, hd, hr, h0, h1, rfl⟩ := storeBinary_ok.mp h
    exact .add ha hb hd hr h0 h1
  | mul m =>
    obtain ⟨a, b, d, r, ha, hb, hd, hr, h0, h1, rfl⟩ := storeBinary_ok.mp h
    exact .mul ha hb hd hr h0 h1
  | inp m =>
    simp only [attempt, except_bind_ok, memWrite_ok, inRead_ok] at h
    obtain ⟨d, hd, v, hv, u, ⟨h0, h1, rfl⟩, hu⟩ := h
    cases hu
    exact .inp hd hv h0 h1
  | out m =>
    simp only [attempt, except_bind_ok] at h
    obtain ⟨d, hd, v, hv, hu⟩ := h
    cases hu
    exact .out hd hv
  | jt m =>
    obtain ⟨c, v, hc, hj, hv, h0, h1, rfl⟩ | ⟨c, hc, hj, rfl⟩ := jumpWhen_ok.mp h
    · exact .jtTaken hc (by simpa [jumpsIfTrue] using hj) hv h0 h1
    · obtain rfl : c = 0 := by simpa [jumpsIfTrue] using hj
      exact .jtNotTaken hc
  | jf m =>
    obtain ⟨c, v, hc, hj, hv, h0, h1, rfl⟩ | ⟨c, hc, hj, rfl⟩ := jumpWhen_ok.mp h
    · obtain rfl : c = 0 := by simpa [jumpsIfFalse] using hj
      exact .jfTaken hc hv h0 h1
    · exact .jfNotTaken hc (by simpa [jumpsIfFalse] using hj)
  | lt m =>
    obtain ⟨a, b, d, r, ha, hb, hd, hr, h0, h1, rfl⟩ := storeBinary_ok.mp h
    cases hr
    exact .lt ha hb hd h0 h1
  | eq m =>
    obtain ⟨a, b, d, r, ha, hb, hd, hr, h0, h1, rfl⟩ := storeBinary_ok.mp h
    cases hr
    exact .eq ha hb hd h0 h1
  | halt m =>
    cases h
    exact .halt

/-- An instruction that faults raises one of its faults. -/
theorem raises_of_error {i : Instr} {s : State} {f : FaultRequest} (h : attempt i s = .error f) : Raises s i f := by
  cases i with
  | add m =>
    obtain h | ⟨a, ha, h | ⟨b, hb, h | ⟨d, hd, h | ⟨r, hr, h⟩⟩⟩⟩ := storeBinary_error.mp h
    · exact .operand1 rfl h
    · exact .operand2 ha rfl h
    · exact .address le_rfl h
    · exact .addOverflow ha hb h
    · exact .write hd h
  | mul m =>
    obtain h | ⟨a, ha, h | ⟨b, hb, h | ⟨d, hd, h | ⟨r, hr, h⟩⟩⟩⟩ := storeBinary_error.mp h
    · exact .operand1 rfl h
    · exact .operand2 ha rfl h
    · exact .address le_rfl h
    · exact .mulOverflow ha hb h
    · exact .write hd h
  | inp m =>
    simp only [attempt, except_bind_error] at h
    obtain h | ⟨d, hd, h | ⟨v, hv, h | ⟨t, ht, h⟩⟩⟩ := h
    · exact .address (by omega) h
    · exact .input h
    · exact .write hd h
    · cases h
  | out m =>
    simp only [attempt, except_bind_error] at h
    obtain h | ⟨d, hd, h | ⟨v, hv, h⟩⟩ := h
    · exact .address (by omega) h
    · exact .read hd h
    · cases h
  | jt m =>
    obtain h | ⟨c, hc, hj, h | ⟨v, hv, h⟩⟩ := jumpWhen_error.mp h
    · exact .operand1 rfl h
    · exact .operand2 hc hj h
    · exact .jump hv h
  | jf m =>
    obtain h | ⟨c, hc, hj, h | ⟨v, hv, h⟩⟩ := jumpWhen_error.mp h
    · exact .operand1 rfl h
    · exact .operand2 hc hj h
    · exact .jump hv h
  | lt m =>
    obtain h | ⟨a, ha, h | ⟨b, hb, h | ⟨d, hd, h | ⟨r, hr, h⟩⟩⟩⟩ := storeBinary_error.mp h
    · exact .operand1 rfl h
    · exact .operand2 ha rfl h
    · exact .address le_rfl h
    · cases h
    · exact .write hd h
  | eq m =>
    obtain h | ⟨a, ha, h | ⟨b, hb, h | ⟨d, hd, h | ⟨r, hr, h⟩⟩⟩⟩ := storeBinary_error.mp h
    · exact .operand1 rfl h
    · exact .operand2 ha rfl h
    · exact .address le_rfl h
    · cases h
    · exact .write hd h
  | halt m => cases h

/-- Everything an instruction can do: fault entry, for a fault it can raise, on the state before the step, or its own
writes. -/
theorem exec_cases {i : Instr} {s t : State} (h : exec i s = .next t) :
    (∃ f, attempt i s = .error f ∧ Raises s i f ∧ t = s.takeFault f) ∨ (attempt i s = .ok t ∧ Commits s i t) := by
  rw [exec_eq_commit] at h
  obtain h | ⟨f, hf, ht⟩ := commit_next.mp h
  · exact .inr ⟨h, commits_of_ok h⟩
  · exact .inl ⟨f, hf, raises_of_error hf, ht⟩

/-- A value operand resolves to `v` exactly when the tape says so. -/
theorem valueIs_iff {s : State} {k : Nat} {m : Mode} {v : Int} : ValueIs s k m v ↔ resolveValue s k m = .ok v := by
  rw [resolveValue_ok]
  constructor
  · rintro ⟨h, ⟨hm, hv⟩ | ⟨hm, ⟨h0, h1⟩, hv⟩⟩
    · exact ⟨h, .inl ⟨hm, hv⟩⟩
    · exact ⟨h, .inr ⟨hm, h0, h1, hv⟩⟩
  · rintro ⟨h, ⟨hm, hv⟩ | ⟨hm, h0, h1, hv⟩⟩
    · exact ⟨h, .inl ⟨hm, hv⟩⟩
    · exact ⟨h, .inr ⟨hm, ⟨h0, h1⟩, hv⟩⟩

/-- An address operand on the tape resolves to its raw word. -/
theorem resolveAddress_of_hasOperand {s : State} {k : Nat} (h : HasOperand s k) :
    resolveAddress s k = .ok (rawWord s k) := argRead_ok.mpr ⟨h, rfl⟩

/-- Fault entry written out, for every fault but that of the fetch. -/
theorem takeFault_eq_faultedState {s : State} {k : FaultKind} {a : FaultAccess} {v : Int} (h : a ≠ .fetch) :
    s.takeFault ⟨k, a, v⟩ = faultedState s k a v := by
  simp [State.takeFault, h]

/-- A fetched word decodes to its instruction, or is the `UnknownOpcode` fault (R153). -/
theorem dispatch_cases (w : Int) :
    (∃ i, decode w = .ok i ∧ dispatch w = .ok i) ∨
    (decode w = .error (.unknownOpcode (opcodeOf w)) ∧ dispatch w = .error ⟨.unknownOpcode, .none, opcodeOf w⟩) := by
  unfold dispatch decode
  cases lookup (opcodeOf w) (modesOf w) <;> simp

/-- Fetch gives the word at `PC` exactly when `PC` lies on the tape (R151). -/
theorem fetch_ok {s : State} {w : Int} : fetch s = .ok w ↔ s.pc < s.tape.size ∧ w = s.tape.read s.pc := by
  unfold fetch
  rw [memRead_ok, Int.toNat_natCast]
  constructor
  · rintro ⟨-, h, hw⟩
    exact ⟨by omega, hw⟩
  · rintro ⟨h, hw⟩
    exact ⟨by omega, by omega, hw⟩

theorem fetch_error {s : State} {f : FaultRequest} :
    fetch s = .error f ↔ s.tape.size ≤ s.pc ∧ f = ⟨.invalidAddress, .fetch, (s.pc : Int)⟩ := by
  unfold fetch
  rw [memRead_error]
  constructor
  · rintro ⟨h, hf⟩
    exact ⟨by omega, hf⟩
  · rintro ⟨h, hf⟩
    exact ⟨by omega, hf⟩

/-- What FETCH, DECODE and DISPATCH can give: the instruction of the word at `PC`, the fetch fault, or the unknown opcode. -/
theorem fetchInstr_cases (s : State) :
    (∃ i, s.pc < s.tape.size ∧ decode (s.tape.read s.pc) = .ok i ∧ fetchInstr s = .ok i) ∨
    (s.tape.size ≤ s.pc ∧ fetchInstr s = .error ⟨.invalidAddress, .fetch, (s.pc : Int)⟩) ∨
    (s.pc < s.tape.size ∧
      decode (s.tape.read s.pc) = .error (.unknownOpcode (opcodeOf (s.tape.read s.pc))) ∧
      fetchInstr s = .error ⟨.unknownOpcode, .none, opcodeOf (s.tape.read s.pc)⟩) := by
  by_cases h : s.pc < s.tape.size
  · have hf : fetch s = .ok (s.tape.read s.pc) := fetch_ok.mpr ⟨h, rfl⟩
    obtain ⟨i, hd, hi⟩ | ⟨hd, he⟩ := dispatch_cases (s.tape.read s.pc)
    · exact .inl ⟨i, h, hd, by simp [fetchInstr, hf, hi]⟩
    · exact .inr (.inr ⟨h, hd, by simp [fetchInstr, hf, he]⟩)
  · have hf : fetch s = .error ⟨.invalidAddress, .fetch, (s.pc : Int)⟩ := fetch_error.mpr ⟨by omega, rfl⟩
    exact .inr (.inl ⟨by omega, by simp [fetchInstr, hf]⟩)

/-- Everything a step can do: nothing in a terminal status; the fetch fault; the unknown opcode; a fault of the
instruction; or the instruction's own writes. -/
theorem step_cases {s t : State} (h : step s = .next t) :
    (s.status ≠ .running ∧ t = s) ∨
    (s.status = .running ∧ s.tape.size ≤ s.pc ∧ t = s.takeFault ⟨.invalidAddress, .fetch, (s.pc : Int)⟩) ∨
    (s.status = .running ∧ s.pc < s.tape.size ∧
      t = s.takeFault ⟨.unknownOpcode, .none, opcodeOf (s.tape.read s.pc)⟩) ∨
    (s.status = .running ∧ s.pc < s.tape.size ∧
      ∃ i f, decode (s.tape.read s.pc) = .ok i ∧ attempt i s = .error f ∧ Raises s i f ∧ t = s.takeFault f) ∨
    (s.status = .running ∧ s.pc < s.tape.size ∧
      ∃ i, decode (s.tape.read s.pc) = .ok i ∧ attempt i s = .ok t ∧ Commits s i t) := by
  unfold step stepWith at h
  cases hs : s.status with
  | running =>
    simp only [hs] at h
    obtain ⟨i, hpc, hd, hf⟩ | ⟨hpc, hf⟩ | ⟨hpc, -, hf⟩ := fetchInstr_cases s
    · simp only [hf] at h
      obtain ⟨f, ha, hr, ht⟩ | ⟨ha, hc⟩ := exec_cases h
      · exact .inr (.inr (.inr (.inl ⟨rfl, hpc, i, f, hd, ha, hr, ht⟩)))
      · exact .inr (.inr (.inr (.inr ⟨rfl, hpc, i, hd, ha, hc⟩)))
    · simp only [hf, commit_error] at h
      cases h
      exact .inr (.inl ⟨rfl, hpc, rfl⟩)
    · simp only [hf, commit_error] at h
      cases h
      exact .inr (.inr (.inl ⟨rfl, hpc, rfl⟩))
  | halted =>
    simp only [hs] at h
    cases h
    exact .inl ⟨by simp, rfl⟩
  | faulted =>
    simp only [hs] at h
    cases h
    exact .inl ⟨by simp, rfl⟩

end Sys2Proof.Machine
end

