-- ==== Sys2Proof/Laws/Phases.lean ====
section
/-! SUPPORT. One turn of the phase loop, by how its phase ends. -/

namespace Sys2Proof.Machine

theorem phaseLoop_goto {s : State} {p q : Phase} {l l' : Latches} (h : phaseStep s p l = .goto q l') (n : Nat) :
    phaseLoop s (n + 1) p l = phaseLoop s n q l' := by
  rw [phaseLoop, h]

theorem phaseLoop_fault {s : State} {p : Phase} {l : Latches} {f : FaultRequest} (h : phaseStep s p l = .fault f)
    (n : Nat) : phaseLoop s (n + 1) p l = some (s.takeFault f) := by
  rw [phaseLoop, h]

theorem phaseLoop_done {s t : State} {p : Phase} {l : Latches} (h : phaseStep s p l = .done t) (n : Nat) :
    phaseLoop s (n + 1) p l = some t := by
  rw [phaseLoop, h]

/-- A fetched word that decodes brings the FSM from FETCH past DISPATCH, with the word, its opcode, its modes and its
instruction latched. -/
theorem phaseLoop_dispatched {s : State} {w : Int} {i : Instr} (hw : fetch s = .ok w)
    (hi : lookup (opcodeOf w) (modesOf w) = some i) (l : Latches) (n : Nat) :
    phaseLoop s (n + 3) .fetch l =
      phaseLoop s n (nextPhase i false .dispatch)
        { l with word := w, opcode := opcodeOf w, modes := modesOf w, instr := i } := by
  have hf : phaseStep s .fetch l = .goto .decode { l with word := w } := by
    simp only [phaseStep, hw, ok_bind]
    rfl
  rw [phaseLoop_goto hf, phaseLoop_goto rfl]
  exact phaseLoop_goto (by simp only [phaseStep, hi]) n

end Sys2Proof.Machine
end

