-- ==== Sys2Proof/Tests/Slice0.lean ====
section
/-! SUPPORT. Tests with expected results from spec/95_test_vectors.md (the vector's id stands in each docstring) and from the
encodings of spec/30_encoding.md, and the witnesses that the hypotheses of the statements can be met. -/

namespace Sys2Proof.Tests

open Sys2Proof.Machine

/-- A constructed state at `W = 16`, `OVERFLOW_MODE = Fault`. -/
def start (tape input : List Word) : State := State.initial ⟨16, .fault, input⟩ tape

/-- A constructed state at `W = 16`, `OVERFLOW_MODE = Wrap`. -/
def startWrap (tape input : List Word) : State := State.initial ⟨16, .wrap, input⟩ tape

/-- What a test looks at after one step: tape, `PC`, `IN_CUR`, `OUT`, `STATUS`. -/
def view (s : State) : Option (List Word × Nat × Nat × List Word × Status) :=
  (stepRequest s).map fun r => (r.1.tape.toWords, r.1.pc, r.1.inCur, r.1.out, r.2)

/-- The fault record after one step. -/
def record (s : State) : Option FaultRecord := (stepRequest s).map fun r => r.1.faultRecord

/-- All mode digits 0. -/
def pos : Modes := ⟨.position, .position, .position⟩

/-- Mode digits 1, 1, 0. -/
def imm2 : Modes := ⟨.immediate, .immediate, .position⟩

/-! ## WellFormed -/

theorem test_wellFormed_accepts_digits : (Instr.add ⟨.other 2, .other 9, .immediate⟩).WellFormed := by decide
theorem test_wellFormed_refuses_mode1 : ¬ (Instr.add ⟨.other 1, .position, .position⟩).WellFormed := by decide
theorem test_wellFormed_refuses_mode2 : ¬ (Instr.jt ⟨.position, .other 10, .position⟩).WellFormed := by decide
theorem test_wellFormed_refuses_mode3 : ¬ (Instr.halt ⟨.position, .position, .other (-3)⟩).WellFormed := by decide

/-! ## Decoding, by words written out from R60, R62 and R66: `d4 d3 d2 | d1 d0` -/

/-- ADD: `1 | 1 | 1 | 01`. -/
theorem test_decode_add : decode 11101 = .ok (.add ⟨.immediate, .immediate, .immediate⟩) := rfl
/-- MUL: `0 | 1 | 0 | 02` (E4). -/
theorem test_decode_mul : decode 1002 = .ok (.mul ⟨.position, .immediate, .position⟩) := rfl
/-- IN: `2 | 03`. -/
theorem test_decode_in : decode 203 = .ok (.inp ⟨.other 2, .position, .position⟩) := rfl
/-- OUT: `1 | 04`. -/
theorem test_decode_out : decode 104 = .ok (.out ⟨.immediate, .position, .position⟩) := rfl
/-- JT: `2 | 0 | 1 | 05`. -/
theorem test_decode_jt : decode 20105 = .ok (.jt ⟨.immediate, .position, .other 2⟩) := rfl
/-- JF: `1 | 0 | 06`. -/
theorem test_decode_jf : decode 1006 = .ok (.jf ⟨.position, .immediate, .position⟩) := rfl
/-- LT: `3 | 07`. -/
theorem test_decode_lt : decode 307 = .ok (.lt ⟨.other 3, .position, .position⟩) := rfl
/-- EQ: `1 | 1 | 08`. -/
theorem test_decode_eq : decode 1108 = .ok (.eq ⟨.immediate, .immediate, .position⟩) := rfl
/-- HALT: `2 | 2 | 99` (R69). -/
theorem test_decode_halt : decode 2299 = .ok (.halt ⟨.other 2, .other 2, .position⟩) := rfl
/-- Digits `d5` and up (R64). -/
theorem test_decode_ignores_high_digits : decode 100001 = decode 1 := rfl
/-- 0, 9, 98 and -99 are no opcodes (U1, U2, U3, H5). -/
theorem test_decode_unknown :
    decode 0 = .error (.unknownOpcode 0) ∧ decode 9 = .error (.unknownOpcode 9) ∧
    decode 98 = .error (.unknownOpcode 98) ∧ decode (-99) = .error (.unknownOpcode (-99)) := ⟨rfl, rfl, rfl, rfl⟩
/-- The lengths of R65, in the order of R66. -/
theorem test_lengths : opcodeTable.map (fun r => r.format.length) = [4, 4, 2, 2, 3, 3, 4, 4, 1] := by decide
/-- The example of R71. -/
theorem test_assembler : (Asm.mul (.pos 4) (.imm 3) 4).words = [1002, 4, 3, 4] := by decide
/-- Program P2, whose tape the spec writes out. -/
theorem test_assembler_countdown :
    ([.inp 15, .jf (.pos 15) (.imm 14), .out 15, .add (.imm (-1)) (.pos 15) 15, .jt (.imm 1) (.imm 2), .halt,
      .word 0] : List Asm).flatMap Asm.words =
    [3, 15, 1006, 15, 14, 4, 15, 101, -1, 15, 15, 1105, 1, 2, 99, 0] := by decide

/-! ## One step of each instruction -/

/-- A1. -/
theorem test_add : view (start [1, 5, 6, 7, 99, 10, -3, 0] []) =
    some ([1, 5, 6, 7, 99, 10, -3, 7], 4, 0, [], .running) := by decide
/-- A13, both overflow modes. -/
theorem test_add_overflow :
    record (start [1101, 32767, 1, 5, 99, 0] []) = some ⟨.arithmeticOverflow, .none, 0, 1101, 0⟩ ∧
    view (startWrap [1101, 32767, 1, 5, 99, 0] []) =
      some ([1101, 32767, 1, 5, 99, -32768], 4, 0, [], .running) := by decide
/-- E4. -/
theorem test_mul : view (start [1002, 4, 3, 4, 33] []) = some ([1002, 4, 3, 4, 99], 4, 0, [], .running) := by decide
/-- M6, both overflow modes. -/
theorem test_mul_overflow :
    record (start [1102, 182, 181, 5, 99, 0] []) = some ⟨.arithmeticOverflow, .none, 0, 1102, 0⟩ ∧
    view (startWrap [1102, 182, 181, 5, 99, 0] []) =
      some ([1102, 182, 181, 5, 99, -32594], 4, 0, [], .running) := by decide
/-- I5: IN overwrites its own operand word. -/
theorem test_in : view (start [3, 1, 99] [2]) = some ([3, 2, 99], 2, 1, [], .running) := by decide
/-- I6: the missing operand word faults before the input check. -/
theorem test_in_missing_operand : record (start [3] [1]) = some ⟨.invalidAddress, .arg, 0, 3, 1⟩ := by decide
/-- O2: OUT with mode digit 1 dereferences. -/
theorem test_out : view (start [104, 3, 99, -9] []) = some ([104, 3, 99, -9], 2, 0, [-9], .running) := by decide
/-- O3. -/
theorem test_out_range : record (start [104, 999, 99] []) = some ⟨.invalidAddress, .read, 0, 104, 999⟩ := by decide
/-- J3: a negative condition is true. -/
theorem test_jt_taken : view (start [1105, -1, 4, 77, 99] []) = some ([1105, -1, 4, 77, 99], 4, 0, [], .running) := by
  decide
/-- J10: not taken at `N - 2`, the target word is not read. -/
theorem test_jt_not_taken : view (start [1105, 0] []) = some ([1105, 0], 3, 0, [], .running) := by decide
/-- F3: taken to a Position target. -/
theorem test_jf_taken : view (start [106, 0, 5, 99, 77, 3] []) = some ([106, 0, 5, 99, 77, 3], 3, 0, [], .running) := by
  decide
/-- F5: not taken, the target's bad mode digit is not checked. -/
theorem test_jf_not_taken : view (start [20106, 1, 7, 99] []) = some ([20106, 1, 7, 99], 3, 0, [], .running) := by
  decide
/-- L3: signed. -/
theorem test_lt : view (start [1107, -1, 0, 5, 99, -1] []) = some ([1107, -1, 0, 5, 99, 1], 4, 0, [], .running) := by
  decide
/-- L7. -/
theorem test_lt_mode : record (start [307, 5, 6, 7, 99, 3, 3, 9] []) = some ⟨.invalidMode, .none, 0, 307, 3⟩ := by decide
/-- Q3: Immediate 3 against Position `T[3] = 5`. -/
theorem test_eq : view (start [108, 3, 3, 5, 99, -1] []) = some ([108, 3, 3, 5, 99, 0], 4, 0, [], .running) := by decide
/-- Q4. -/
theorem test_eq_write : record (start [1108, 0, 0, 9, 99] []) = some ⟨.invalidAddress, .write, 0, 1108, 9⟩ := by decide
/-- H2. -/
theorem test_halt : view (start [1199, 0] []) = some ([1199, 0], 0, 0, [], .halted) := by decide
/-- H6: one more step changes nothing. -/
theorem test_halt_again : step { start [99] [] with status := .halted } = .next { start [99] [] with status := .halted } :=
  rfl

/-! ## The step, the host interface, the phases -/

/-- U4. -/
theorem test_unknown_opcode : record (start [-1] []) = some ⟨.unknownOpcode, .none, 0, -1, -1⟩ := by decide
/-- U6: the empty tape, which is also the state after reset. -/
theorem test_reset_first_step : record State.reset = some ⟨.invalidAddress, .fetch, 0, 0, 0⟩ := by decide
/-- J5: a target equal to `N`. -/
theorem test_jump_range : record (start [1105, 1, 4, 99] []) = some ⟨.invalidAddress, .jump, 0, 1105, 4⟩ := by decide
/-- `construct` of the empty tape at the default parameters is the state after reset (R190). -/
theorem test_reset_is_constructed : construct defaultConfig [] = some State.reset := by decide
/-- The words at the two ends of the range at `W = 16` (R9), and `wrap` just past them. -/
theorem test_width : wmin 16 = -32768 ∧ wmax 16 = 32767 ∧ wrap 16 32768 = -32768 ∧ wrap 16 (-32769) = 32767 := by decide
/-- `sext_16(-2)` on a 32-bit bus, and a bus value that is no 16-bit word (R160). -/
theorem test_bus : toBus 32 (-2) = 0xFFFFFFFE#32 ∧ fromBus 16 (0x8000#32) = none := by decide
/-- The codes of R25; 6 and 7 are never produced. -/
theorem test_fault_codes :
    [FaultKind.none, .invalidAddress, .unknownOpcode, .invalidMode, .inputExhausted, .arithmeticOverflow].map
      (fun k => k.code.toNat) = [0, 1, 2, 3, 4, 5] ∧
    [FaultAccess.none, .fetch, .arg, .read, .write, .jump].map (fun a => a.code.toNat) = [0, 1, 2, 3, 4, 5] := by decide
/-- The host reads a register and a tape word between steps (R160). -/
theorem test_host_read :
    (start [3, -7] []).readRegister .status = 0 ∧ (start [3, -7] []).hostTape 1 = some (-7) ∧
    (start [3, -7] []).hostTape 2 = none := by decide
/-- E8 through `run` and through the phases. -/
theorem test_run_and_phases :
    (run 1 (start [77, 0, 0, 0] [])).map (fun r => r.2) =
      some ⟨[], [77, 0, 0, 0], .faulted, some ⟨.unknownOpcode, .none, 0, 77, 77⟩⟩ ∧
    (runPhases (start [1002, 4, 3, 4, 33] [])).map (fun t => t.tape.toWords) = some [1002, 4, 3, 4, 99] := by decide
/-- The end of E3's run with input 42, as the caller observes it (R162). -/
theorem test_end_of_run :
    (run 3 (start [3, 0, 4, 0, 99] [42])).map (fun r => r.1.endOfRun) =
      some ⟨[42], 1, [42, 0, 4, 0, 99], .halted, ⟨.none, .none, 0, 0, 0⟩, 4, 1⟩ := by decide
/-- A placed instruction runs as the first one after reset: MUL 0, 0, 0 on its own opcode word (M8's arithmetic). -/
theorem test_placed_instruction :
    decodeTableWord 256 2 = some (.mul pos) ∧
    (stepRequest (State.reset.withFetchWord 256 2)).map (fun r => (r.1.tape.toWords, r.1.pc)) =
      some ([4, 0, 0, 0], 4) := by decide
/-- HALT as the first instruction after reset. -/
theorem test_placed_halt :
    (stepRequest (State.reset.withFetchWord 8 99)).map (fun r => r.2) = some .halted := by decide

/-! ## Witnesses: states and operands that meet the hypotheses of the statements -/

theorem witness_DecodeOfEncodeIsTheInstruction : (Instr.mul ⟨.position, .immediate, .other 9⟩).WellFormed := by decide
theorem witness_EncodeOfDecodeIsTheWord :
    (0 : Int) ≤ 99999 ∧ (99999 : Int) ≤ 99999 ∧ decode 99999 = .ok (.halt ⟨.other 9, .other 9, .other 9⟩) :=
  ⟨by decide, by decide, rfl⟩
theorem witness_EveryWordDecodesOrIsUnknown :
    ((0 : Int) ≤ 1099 ∧ (1099 : Int) % 100 ∈ opcodeList) ∧ ((0 : Int) ≤ 0 ∧ (0 : Int) % 100 ∉ opcodeList) ∧
    (-1 : Int) < 0 := by decide
theorem witness_DigitsAboveTheModesAreIgnored : (0 : Int) ≤ 1 ∧ (0 : Int) ≤ 7 := by decide
theorem witness_UnconsultedDigitsHaveNoEffect_above :
    decode 11101 = .ok (.add ⟨.immediate, .immediate, .immediate⟩) ∧
    decode 21101 = .ok (.add ⟨.immediate, .immediate, .other 2⟩) ∧ (11101 : Int) % 10000 = 21101 % 10000 :=
  ⟨rfl, rfl, rfl⟩
theorem witness_UnconsultedDigitsHaveNoEffect_all :
    decode 4 = .ok (.out pos) ∧ decode 204 = .ok (.out ⟨.other 2, .position, .position⟩) ∧
    (4 : Int) % 100 = 204 % 100 ∧ (4 : Int) % 100 ∈ ([3, 4, 99] : List Int) := ⟨rfl, rfl, rfl, by decide⟩
theorem witness_StepRunsTheDecodedInstruction :
    (start [99] []).status = .running ∧ (start [99] []).pc < (start [99] []).tape.size ∧
    decode ((start [99] []).tape.read (start [99] []).pc) = .ok (.halt pos) := ⟨rfl, by decide, rfl⟩
theorem witness_FetchReadsThePcOrFaults :
    (start [99] []).pc < (start [99] []).tape.size ∧
    (start [] []).status = .running ∧ (start [] []).tape.size ≤ (start [] []).pc := by decide
theorem witness_UnknownOpcodeFaults_table :
    (start [98, 1] []).status = .running ∧ (start [98, 1] []).pc < (start [98, 1] []).tape.size ∧
    ((start [98, 1] []).tape.read (start [98, 1] []).pc).tmod 100 ∉ opcodeList := by decide
theorem witness_UnknownOpcodeFaults_negative : (start [-1] []).tape.read (start [-1] []).pc < 0 := by decide
theorem witness_TerminalStatusIsFinal :
    { start [99] [] with status := .halted }.status ≠ .running ∧ ∃ t r, run 1 (start [99] []) = some (t, r) :=
  ⟨by decide, _, _, rfl⟩
theorem witness_StatusTransitions :
    step (start [99] []) = .next { start [99] [] with status := .halted } ∧
    { start [99] [] with status := .halted }.status ≠ .running := ⟨rfl, by decide⟩
theorem witness_FaultsArePrecise :
    ∃ t, step (start [3] [1]) = .next t ∧ (start [3] [1]).status = .running ∧ t.status = .faulted :=
  ⟨_, rfl, rfl, rfl⟩
theorem witness_FaultRecordIsWrittenOnlyAtFaultEntry :
    ∃ t, step (start [99] []) = .next t ∧ ¬ ((start [99] []).status = .running ∧ t.status = .faulted) ∧
      t.status ≠ .faulted ∧ FaultRecordZero (start [99] []) := ⟨_, rfl, by decide, by decide, by decide⟩
theorem witness_NoInstructionReadsTheFaultRecord :
    ∃ t, (start [1101, 1, 2, 0] []).status = .running ∧ exec (.add imm2) (start [1101, 1, 2, 0] []) = .next t :=
  ⟨_, rfl, rfl⟩
theorem witness_StepKeepsTheParameters : ∃ t, step (start [1101, 1, 2, 0] []) = .next t := ⟨_, rfl⟩
theorem witness_StepKeepsTheInvariant :
    (start [1101, 1, 2, 0] [5]).Inv ∧ ∃ t, step (start [1101, 1, 2, 0] [5]) = .next t := ⟨by decide, _, rfl⟩
theorem witness_ConstructMeetsTheInvariant :
    ∃ s, construct ⟨16, .wrap, [-32768]⟩ [1101, 32767, -1, 0] = some s := ⟨_, rfl⟩
theorem witness_StepKeepsTheTapeForm :
    (start [1101, 1, -1, 0] []).tape.wf ∧ ∃ t, step (start [1101, 1, -1, 0] []) = .next t := ⟨by decide, _, rfl⟩
theorem witness_PcStaysInRange :
    { start [99] [] with pc := 4 }.pc ≤ { start [99] [] with pc := 4 }.tape.size + 3 ∧
    ∃ t, step { start [99] [] with pc := 4 } = .next t := ⟨by decide, _, rfl⟩
theorem witness_OutputIsAppendOnly :
    (start [4, 0] []).outCur = (start [4, 0] []).out.length ∧
    (∃ t, step (start [4, 0] []) = .next t ∧ (start [4, 0] []).status = .running ∧
      (start [4, 0] []).pc < (start [4, 0] []).tape.size ∧
      decode ((start [4, 0] []).tape.read (start [4, 0] []).pc) = .ok (.out pos) ∧ t.status = .running) ∧
    ∃ t, step (start [4] []) = .next t ∧ t.status = .faulted :=
  ⟨rfl, ⟨_, rfl, rfl, by decide, rfl, rfl⟩, _, rfl, rfl⟩
theorem witness_InputIsConsumedInOrder :
    (start [3, 0] [42]).inCur ≤ (start [3, 0] [42]).cfg.inputLen ∧
    ∃ t, step (start [3, 0] [42]) = .next t ∧ (start [3, 0] [42]).status = .running ∧
      (start [3, 0] [42]).pc < (start [3, 0] [42]).tape.size ∧
      decode ((start [3, 0] [42]).tape.read (start [3, 0] [42]).pc) = .ok (.inp pos) ∧ t.status = .running :=
  ⟨by decide, _, rfl, rfl, by decide, rfl, rfl⟩
theorem witness_MemReadChecksTheRange :
    ((-1 : Int) < 0 ∨ (-1 : Int) ≥ ((start [7, 8] []).tape.size : Int)) ∧
    ((2 : Int) < 0 ∨ (2 : Int) ≥ ((start [7, 8] []).tape.size : Int)) ∧ 1 < (start [7, 8] []).tape.size := by decide
theorem witness_MemWriteChangesOneWord :
    ((2 : Int) < 0 ∨ (2 : Int) ≥ ((start [7, 8] []).tape.size : Int)) ∧ InTape (start [7, 8] []) 1 ∧
    (0 : Int) ≠ 1 := by decide
theorem witness_TapeFormIsCanonical :
    ((Memory.ofWords [5, 0]).write 1 3).wf ∧ (Memory.ofWords [5, 3]).wf ∧
    ((Memory.ofWords [5, 0]).write 1 3).size = (Memory.ofWords [5, 3]).size ∧
    ∀ a, a < ((Memory.ofWords [5, 0]).write 1 3).size →
      ((Memory.ofWords [5, 0]).write 1 3).read a = (Memory.ofWords [5, 3]).read a :=
  ⟨by decide, by decide, rfl, by decide⟩
theorem witness_TapeIsASequenceOfWords : 1 < (Memory.ofWords [5, 0]).size := by decide
/-- The sum at the end of the range, and the first sum past it in both modes. -/
theorem witness_AddResult :
    let s := start [1101, 32767, 0, 0] []
    let f := start [1101, 32767, 1, 0] []
    let w := startWrap [1101, 32767, 1, 0] []
    (ValueIs s 1 .immediate 32767 ∧ ValueIs s 2 .immediate 0 ∧ HasOperand s 3 ∧ Fits s.cfg.wordBits (32767 + 0) ∧
      InTape s (rawWord s 3)) ∧
    (ValueIs f 1 .immediate 32767 ∧ ValueIs f 2 .immediate 1 ∧ HasOperand f 3 ∧
      ¬ Fits f.cfg.wordBits (32767 + 1) ∧ f.cfg.overflowMode = .fault) ∧
    (ValueIs w 1 .immediate 32767 ∧ ValueIs w 2 .immediate 1 ∧ HasOperand w 3 ∧
      ¬ Fits w.cfg.wordBits (32767 + 1) ∧ w.cfg.overflowMode = .wrap ∧ InTape w (rawWord w 3)) := by decide
/-- The same for the product, with a Position operand. -/
theorem witness_MulResult :
    let s := start [1002, 4, -1, 4, 32767] []
    let f := start [1002, 4, -1, 4, -32768] []
    let w := startWrap [1002, 4, -1, 4, -32768] []
    (ValueIs s 1 .position 32767 ∧ ValueIs s 2 .immediate (-1) ∧ HasOperand s 3 ∧
      Fits s.cfg.wordBits (32767 * -1) ∧ InTape s (rawWord s 3)) ∧
    (ValueIs f 1 .position (-32768) ∧ ValueIs f 2 .immediate (-1) ∧ HasOperand f 3 ∧
      ¬ Fits f.cfg.wordBits (-32768 * -1) ∧ f.cfg.overflowMode = .fault) ∧
    (ValueIs w 1 .position (-32768) ∧ ValueIs w 2 .immediate (-1) ∧ HasOperand w 3 ∧
      ¬ Fits w.cfg.wordBits (-32768 * -1) ∧ w.cfg.overflowMode = .wrap ∧ InTape w (rawWord w 3)) := by decide
theorem witness_LtResult :
    let s := start [1107, -1, 0, 3] []
    let t := start [1107, 8, 8, 3] []
    (ValueIs s 1 .immediate (-1) ∧ ValueIs s 2 .immediate 0 ∧ HasOperand s 3 ∧ InTape s (rawWord s 3) ∧
      (-1 : Int) < 0) ∧
    (ValueIs t 1 .immediate 8 ∧ ValueIs t 2 .immediate 8 ∧ HasOperand t 3 ∧ InTape t (rawWord t 3) ∧
      ¬ (8 : Int) < 8) := by decide
theorem witness_EqResult :
    let s := start [1108, 8, 8, 3] []
    let t := start [1108, -1, 32767, 3] []
    (ValueIs s 1 .immediate 8 ∧ ValueIs s 2 .immediate 8 ∧ HasOperand s 3 ∧ InTape s (rawWord s 3)) ∧
    (ValueIs t 1 .immediate (-1) ∧ ValueIs t 2 .immediate 32767 ∧ HasOperand t 3 ∧ InTape t (rawWord t 3) ∧
      (-1 : Int) ≠ 32767) := by decide
theorem witness_InResult :
    let s := start [3, 1] [-5]
    HasOperand s 1 ∧ InTape s (rawWord s 1) ∧ s.cfg.input[s.inCur]? = some (-5) := by decide
theorem witness_OutResult :
    let s := start [104, 1] []
    HasOperand s 1 ∧ InTape s (rawWord s 1) := by decide
theorem witness_OutNeverHonoursAnImmediateDigit :
    let s := start [104, 1] []
    s.status = .running ∧ s.pc < s.tape.size ∧ (0 : Int) ≤ s.tape.read s.pc ∧ s.tape.read s.pc % 100 = 4 ∧
      HasOperand s 1 ∧ InTape s (rawWord s 1) := by decide
theorem witness_JtResult :
    let s := start [1105, -1, 2] []
    let t := start [1105, 0] []
    (ValueIs s 1 .immediate (-1) ∧ (-1 : Int) ≠ 0 ∧ ValueIs s 2 .immediate 2 ∧ InTape s 2) ∧
    ValueIs t 1 .immediate 0 := by decide
theorem witness_JfResult :
    let s := start [106, 0, 0] []
    let t := start [1106, 5] []
    (ValueIs s 1 .immediate 0 ∧ ValueIs s 2 .position 106 ∧ ¬ InTape s 106) ∧
    (ValueIs { s with pc := 0, tape := Memory.ofWords [106, 0, 1] } 2 .position 0 ∧
      InTape { s with pc := 0, tape := Memory.ofWords [106, 0, 1] } 0) ∧
    (ValueIs t 1 .immediate 5 ∧ (5 : Int) ≠ 0) := by decide
theorem witness_HaltResult :
    let s := start [2299] []
    let t := start [-99] []
    (s.status = .running ∧ s.pc < s.tape.size ∧ (0 : Int) ≤ s.tape.read s.pc ∧ s.tape.read s.pc % 100 = 99) ∧
    (t.status = .running ∧ t.pc < t.tape.size ∧ t.tape.read t.pc = -99) := by decide
/-- IN; E4, whose sum and product are words at `W = 16`; and a sum and a product that wrap. -/
theorem witness_NextFetchSeesTheWrite :
    let s := start [3, 2, 77] [99]
    let e := start [1002, 4, 3, 4, 33] []
    let w := startWrap [1101, 32767, 2, 4, 0] []
    (s.pc + 2 < s.tape.size ∧ rawWord s 1 = ((s.pc + 2 : Nat) : Int) ∧ s.cfg.input[s.inCur]? = some 99) ∧
    (ValueIs e 1 .position 33 ∧ ValueIs e 2 .immediate 3 ∧ e.pc + 4 < e.tape.size ∧
      rawWord e 3 = ((e.pc + 4 : Nat) : Int) ∧ Fits e.cfg.wordBits (33 + 3) ∧ Fits e.cfg.wordBits (33 * 3)) ∧
    (ValueIs w 1 .immediate 32767 ∧ ValueIs w 2 .immediate 2 ∧ w.pc + 4 < w.tape.size ∧
      rawWord w 3 = ((w.pc + 4 : Nat) : Int) ∧ ¬ Fits w.cfg.wordBits (32767 + 2) ∧
      ¬ Fits w.cfg.wordBits (32767 * 2) ∧ w.cfg.overflowMode = .wrap) := by decide
theorem witness_WrapIsTheCongruentWord : 1 ≤ 16 ∧ Fits 16 (-32768) ∧ ((2 ^ 16 : Nat) : Int) ∣ -32768 - 32768 := by decide
theorem witness_InvalidModeFaults :
    let s := start [2001, 0, 6, 7] []
    (consultsMode1 (.jf ⟨.other 2, .position, .position⟩) = true) ∧
    (ValueIs s 1 .position 2001 ∧ consultsMode2 (.add ⟨.position, .other 2, .position⟩) 2001 = true) ∧
    (consultsMode2 (.jt ⟨.position, .other 2, .position⟩) 2001 = true) ∧
    ∃ t, step s = .next t ∧ s.status = .running ∧ t.status = .faulted ∧ t.faultKind = .invalidMode :=
  ⟨rfl, by decide, rfl, _, rfl, rfl, rfl, rfl⟩
theorem witness_MissingOperandFaults :
    let s := start [1101] []
    let t := start [1101, 1] []
    let u := start [1101, 1, 2] []
    ((Instr.add imm2).format ≠ .f0 ∧ IsMode imm2.mode1 ∧ s.tape.size ≤ s.pc + 1) ∧
    (ValueIs t 1 .immediate 1 ∧ consultsMode2 (.add imm2) 1 = true ∧ IsMode imm2.mode2 ∧ t.tape.size ≤ t.pc + 2) ∧
    ((Instr.add imm2).format = .f3 ∧ ValueIs u 1 .immediate 1 ∧ ValueIs u 2 .immediate 2 ∧
      u.tape.size ≤ u.pc + 3) := by decide
theorem witness_DereferenceOutsideTheTapeFaults :
    let s := start [1, 4, 6, 7] []
    let t := start [101, 1, -1, 7] []
    let u := start [4, 2] []
    (consultsMode1 (.add pos) = true ∧ HasOperand s 1 ∧ ¬ InTape s (rawWord s 1)) ∧
    (ValueIs t 1 .immediate 1 ∧ consultsMode2 (.add pos) 1 = true ∧ HasOperand t 2 ∧ ¬ InTape t (rawWord t 2)) ∧
    (HasOperand u 1 ∧ ¬ InTape u (rawWord u 1)) := by decide
theorem witness_DestinationOutsideTheTapeFaults :
    let s := start [1101, 1, 2, -1] []
    let w := startWrap [1101, 32767, 2, 4] []
    let t := start [3, 2] [5]
    (ValueIs s 1 .immediate 1 ∧ ValueIs s 2 .immediate 2 ∧ HasOperand s 3 ∧ ¬ InTape s (rawWord s 3) ∧
      Fits s.cfg.wordBits (1 + 2) ∧ Fits s.cfg.wordBits (1 * 2)) ∧
    (ValueIs w 1 .immediate 32767 ∧ ValueIs w 2 .immediate 2 ∧ HasOperand w 3 ∧ ¬ InTape w (rawWord w 3) ∧
      ¬ Fits w.cfg.wordBits (32767 + 2) ∧ ¬ Fits w.cfg.wordBits (32767 * 2) ∧ w.cfg.overflowMode = .wrap) ∧
    (HasOperand t 1 ∧ ¬ InTape t (rawWord t 1) ∧ t.inCur < t.cfg.inputLen) := by decide
theorem witness_JumpOutsideTheTapeFaults :
    let s := start [1105, 1, 3] []
    let t := start [1106, 0, -1] []
    (ValueIs s 1 .immediate 1 ∧ ValueIs s 2 .immediate 3 ∧ ¬ InTape s 3) ∧
    (ValueIs t 1 .immediate 0 ∧ ValueIs t 2 .immediate (-1) ∧ ¬ InTape t (-1)) := by decide
theorem witness_InputExhaustedFaults :
    let s := start [3, 0] []
    HasOperand s 1 ∧ s.cfg.inputLen ≤ s.inCur ∧ s.inCur ≤ s.cfg.inputLen ∧
    ∃ t, step s = .next t ∧ s.status = .running ∧ t.status = .faulted ∧ t.faultKind = .inputExhausted :=
  ⟨by decide, by decide, by decide, _, rfl, rfl, rfl, rfl⟩
theorem witness_OverflowFaultOnlyInFaultMode :
    let s := start [1101, 32767, 1, 0] []
    ∃ t, step s = .next t ∧ s.status = .running ∧ t.status = .faulted ∧ t.faultKind = .arithmeticOverflow :=
  ⟨_, rfl, rfl, rfl, rfl⟩
theorem witness_StoringInstructionsFrame :
    Instr.lt imm2 ∈ [Instr.add imm2, Instr.mul imm2, Instr.lt imm2, Instr.eq imm2] ∧
    ∃ t, exec (.lt imm2) (start [1107, 7, 8, 3] []) = .next t ∧ t.status = .running := ⟨by decide, _, rfl, rfl⟩
theorem witness_InFrame : ∃ t, exec (.inp pos) (start [3, 1] [9]) = .next t ∧ t.inCur = 1 := ⟨_, rfl, rfl⟩
theorem witness_InstructionsThatStoreNothingFrame :
    Instr.jt imm2 ∈ [Instr.out imm2, Instr.jt imm2, Instr.jf imm2, Instr.halt imm2] ∧
    ∃ t, exec (.jt imm2) (start [1105, 1, 2] []) = .next t ∧ t.pc = 2 := ⟨by decide, _, rfl, rfl⟩
theorem witness_PhasesComputeTheStep : (start [1105, 1, 2] []).status = .running := rfl
theorem witness_ConstructBuildsTheResetState : ∃ s, construct ⟨16, .fault, [1]⟩ [99] = some s := ⟨_, rfl⟩
theorem witness_ConstructRefusesNonWords :
    (32768 : Int) ∈ [(99 : Int), 32768] ∧ ¬ Fits 16 32768 ∧
    (∀ v ∈ [(99 : Int), 32767], Fits 16 v) ∧ [(99 : Int), 32767].length + 4 ≤ 2 ^ (16 - 1) := by decide
theorem witness_BusCarriesWords : 1 ≤ 16 ∧ 16 ≤ 32 ∧ Fits 16 (-32768) ∧ ¬ Fits 16 (0x8000#32).toInt := by decide
theorem witness_RunIsStepRepeated :
    (∃ t r, run 2 (start [1105, 1, 3, 99] []) = some (t, r)) ∧
    ∃ t : State, Host.Core.run Sys2Proof.core 2 (start [1105, 1, 3, 99] []) = .next t ∧ t.status ≠ .running :=
  ⟨⟨_, _, rfl⟩, _, rfl, by decide⟩
theorem witness_RunResultDoesNotDependOnTheBound :
    ∃ t r, run 1 (start [4] []) = some (t, r) ∧ t.status = .faulted := ⟨_, _, rfl, rfl⟩
theorem witness_HostObservesTheEndOfARun :
    (∃ t r, run 1 (start [99] []) = some (t, r) ∧ (start [99] []).status = .running ∧ t.status = .halted ∧
      (start [99] []).outCur = (start [99] []).out.length ∧ 0 < t.tape.size) ∧
    (∃ t r, run 2 (start [4, 0] []) = some (t, r) ∧ t.status = .faulted ∧ 0 < t.out.length) :=
  ⟨⟨_, _, rfl, rfl, rfl, rfl, by decide⟩, _, _, rfl, rfl, by decide⟩
theorem witness_JumpToSelfNeverEnds :
    let s := start [1105, 1, 0] []
    s.status = .running ∧ s.pc < s.tape.size ∧ decode (s.tape.read s.pc) = .ok (.jt imm2) ∧
      ValueIs s 1 .immediate 1 ∧ (1 : Int) ≠ 0 ∧ ValueIs s 2 .immediate (s.pc : Int) :=
  ⟨rfl, by decide, rfl, by decide, by decide, by decide⟩
theorem witness_PlacedInstructionRunsNext : decodeTableWord 128 99 = some (.halt pos) := by decide

end Sys2Proof.Tests
end

/-! PROOFS. The parameters and the word range of `00_scope.md`: `fits` and `wrap` (R9), the host's bus and `construct`
(R11, R160), and what every step keeps (R7, R20, R21 to R28). -/

namespace Sys2Proof.Machine

/-! ## The word range (R9) -/

theorem halfRange_pos (W : Nat) : 0 < halfRange W := Int.natCast_pos.mpr (by positivity)

/-- A width that R7 admits has at least the words of 16 bits. -/
theorem le_halfRange {W : Nat} (hW : 16 ≤ W) : 32768 ≤ halfRange W := by
  have : 2 ^ 15 ≤ 2 ^ (W - 1) := Nat.pow_le_pow_right (by decide) (by omega)
  unfold halfRange
  omega

theorem two_pow_eq_two_mul_halfRange {W : Nat} (hW : 1 ≤ W) : ((2 ^ W : Nat) : Int) = 2 * halfRange W := by
  obtain ⟨n, rfl⟩ := Nat.exists_eq_add_of_le' hW
  simp [halfRange, pow_succ, mul_comm]

theorem fits_iff {W : Nat} {v : Int} : Fits W v ↔ -halfRange W ≤ v ∧ v < halfRange W := by
  unfold Fits wmin wmax
  omega

/-- Zero is a word of every width, so an unlisted tape index holds a word. -/
theorem fits_zero (W : Nat) : Fits W 0 := by
  have := halfRange_pos W
  rw [fits_iff]
  omega

/-- A 16-bit value is a word of every admitted width. -/
theorem fits_of_small {W : Nat} {v : Int} (hW : 16 ≤ W) (hl : -32768 ≤ v) (hu : v < 32768) : Fits W v := by
  have := le_halfRange hW
  rw [fits_iff]
  omega

/-- A count or an index below `2^(W-1)` is a word. -/
theorem fits_natCast {W n : Nat} (h : n + 1 ≤ 2 ^ (W - 1)) : Fits W (n : Int) := by
  rw [fits_iff]
  unfold halfRange
  omega

theorem fits_wrap (W : Nat) (v : Int) : Fits W (wrap W v) := by
  have hpos := halfRange_pos W
  have h0 := Int.emod_nonneg (v + halfRange W) (b := 2 * halfRange W) (by omega)
  have h1 := Int.emod_lt_of_pos (v + halfRange W) (b := 2 * halfRange W) (by omega)
  rw [fits_iff, wrap]
  omega

theorem dvd_wrap_sub (W : Nat) (v : Int) : 2 * halfRange W ∣ wrap W v - v := by
  have h : wrap W v - v = (v + halfRange W) % (2 * halfRange W) - (v + halfRange W) := by
    unfold wrap
    ring
  exact h ▸ Int.dvd_emod_sub_self

/-- Two words that are congruent modulo `2^W` are the same word. -/
theorem eq_of_fits_of_dvd_sub {W : Nat} {u w : Int} (hu : Fits W u) (hw : Fits W w)
    (h : 2 * halfRange W ∣ u - w) : u = w := by
  rw [fits_iff] at hu hw
  have hzero : u - w = 0 := Int.eq_zero_of_abs_lt_dvd h (by rw [abs_lt]; omega)
  omega

/-- Settles O40: `wrap` shifts the range to start at 0, reduces modulo `2^W` and shifts back. -/
theorem wrapIsTheCongruentWord : Obligations.WrapIsTheCongruentWord := by
  unfold Obligations.WrapIsTheCongruentWord
  intro W v hW
  rw [two_pow_eq_two_mul_halfRange hW]
  refine ⟨fits_wrap W v, dvd_wrap_sub W v, fun u hu hdvd => ?_⟩
  refine eq_of_fits_of_dvd_sub hu (fits_wrap W v) ?_
  simpa using dvd_sub hdvd (dvd_wrap_sub W v)

/-! ## The host's bus and `construct` (R11, R160) -/

theorem fromBus_of_fits {W n : Nat} {b : BitVec n} (h : Fits W b.toInt) : fromBus W b = some b.toInt := if_pos h

theorem fromBus_of_not_fits {W n : Nat} {b : BitVec n} (h : ¬ Fits W b.toInt) : fromBus W b = none := if_neg h

/-- Sign extension to a bus of at least `W` bits keeps the value of a word (R11). -/
theorem toInt_toBus {W n : Nat} {v : Int} (hW : 1 ≤ W) (hn : W ≤ n) (hv : Fits W v) : (toBus n v).toInt = v := by
  have hle : 2 ^ (W - 1) ≤ 2 ^ (n - 1) := Nat.pow_le_pow_right (by decide) (by omega)
  have hcast : ((2 ^ (n - 1) : Nat) : Int) = 2 ^ (n - 1) := by push_cast; rfl
  rw [fits_iff] at hv
  unfold halfRange at hv
  exact BitVec.toInt_ofInt_eq_self (by omega) (by omega) (by omega)

/-- Settles O54: the bus value of a word is the word, so `fromBus` gives it back; it refuses every other bus value. -/
theorem busCarriesWords : Obligations.BusCarriesWords := by
  unfold Obligations.BusCarriesWords
  refine ⟨fun W n v hW hn hv => ?_, fun W n b hb => fromBus_of_not_fits hb⟩
  have hbus := toInt_toBus hW hn hv
  rw [fromBus_of_fits (hbus.symm ▸ hv), hbus]

theorem construct_of_constructible {cfg : Config} {ws : List Word} (h : Constructible cfg ws) :
    construct cfg ws = some (State.initial cfg ws) := if_pos h

theorem construct_of_not_constructible {cfg : Config} {ws : List Word} (h : ¬ Constructible cfg ws) :
    construct cfg ws = none := if_neg h

/-- Settles O53: a value that is no word breaks the host's duty, and a tape and an input that meet it are accepted. -/
theorem constructRefusesNonWords : Obligations.ConstructRefusesNonWords := by
  unfold Obligations.ConstructRefusesNonWords
  constructor
  · intro cfg ws v hmem hv
    refine construct_of_not_constructible ?_
    rintro ⟨-, htape, hinput, -⟩
    obtain h | h := hmem
    · exact hv (htape v h)
    · exact hv (hinput v h)
  · intro cfg ws hW htape hinput hlen hinputLen
    exact ⟨_, construct_of_constructible ⟨hW, htape, hinput, hlen, hinputLen⟩⟩

/-! ## What the writes of an instruction leave alone -/

theorem Commits.cfg_eq {s t : State} {i : Instr} (h : Commits s i t) : t.cfg = s.cfg := by
  cases h <;> rfl

theorem Commits.tape_size_eq {s t : State} {i : Instr} (h : Commits s i t) : t.tape.size = s.tape.size := by
  cases h <;> rfl

/-- Only fault entry writes the fault record (R26). -/
theorem Commits.faultRecord_eq {s t : State} {i : Instr} (h : Commits s i t) : t.faultRecord = s.faultRecord := by
  cases h <;> rfl

theorem faultRecordZero_iff {s : State} : FaultRecordZero s ↔ s.faultRecord = ⟨.none, .none, 0, 0, 0⟩ := by
  simp [State.faultRecord]

/-- The writes of an instruction leave the status, or halt. -/
theorem Commits.status_cases {s t : State} {i : Instr} (h : Commits s i t) :
    t.status = s.status ∨ t.status = .halted := by
  cases h with
  | halt => exact .inr rfl
  | _ => exact .inl rfl

/-- Settles O17: fault entry and the writes of every instruction leave the parameters and the size of the tape. -/
theorem stepKeepsTheParameters : Obligations.StepKeepsTheParameters := by
  unfold Obligations.StepKeepsTheParameters
  intro s t h
  obtain ⟨-, rfl⟩ | ⟨-, -, rfl⟩ | ⟨-, -, rfl⟩ | ⟨-, -, i, f, -, -, -, rfl⟩ | ⟨-, -, i, -, -, hc⟩ := step_cases h
  · exact ⟨rfl, rfl⟩
  · exact ⟨rfl, rfl⟩
  · exact ⟨rfl, rfl⟩
  · exact ⟨rfl, rfl⟩
  · exact ⟨hc.cfg_eq, hc.tape_size_eq⟩

/-! ## Words: every value a step computes lies in the word range (R9) -/

/-- A lookup gives the word of a listed cell or the word of an unlisted one. -/
theorem lookupCell_of_forall {P : Int → Prop} {cs : List (Nat × Word)} (h0 : P Memory.unlisted)
    (h : ∀ c ∈ cs, P c.2) (a : Nat) : P (lookupCell cs a) := by
  induction cs with
  | nil => exact h0
  | cons c cs ih =>
    obtain ⟨hc, hcs⟩ := List.forall_mem_cons.mp h
    rw [lookupCell]
    split
    · exact hc
    · exact ih hcs

theorem fits_narrow {c : Config} {r v : Int} (h : narrow c r = .ok v) : Fits c.wordBits v := by
  obtain ⟨hfits, rfl⟩ | ⟨-, -, rfl⟩ := narrow_ok.mp h
  · exact hfits
  · exact fits_wrap _ _

theorem fits_lessWord {W : Nat} (hW : 16 ≤ W) (a b : Int) : Fits W (lessWord a b) := by
  unfold lessWord
  split
  · exact fits_of_small hW (by decide) (by decide)
  · exact fits_zero W

theorem fits_equalWord {W : Nat} (hW : 16 ≤ W) (a b : Int) : Fits W (equalWord a b) := by
  unfold equalWord
  split
  · exact fits_of_small hW (by decide) (by decide)
  · exact fits_zero W

section Words

variable {s : State} (ht : TapeOk s)
include ht

theorem fits_read (a : Nat) : Fits s.cfg.wordBits (s.tape.read a) :=
  lookupCell_of_forall (P := fun v => Fits s.cfg.wordBits v) (fits_zero _) ht.2 a

theorem fits_memRead {acc : FaultAccess} {a v : Int} (h : memRead acc s a = .ok v) : Fits s.cfg.wordBits v := by
  obtain ⟨-, -, rfl⟩ := memRead_ok.mp h
  exact fits_read ht _

theorem fits_resolveAddress {k : Nat} {d : Int} (h : resolveAddress s k = .ok d) : Fits s.cfg.wordBits d :=
  fits_memRead ht h

theorem fits_resolveValue {k : Nat} {m : Mode} {v : Int} (h : resolveValue s k m = .ok v) :
    Fits s.cfg.wordBits v := by
  obtain ⟨-, ⟨-, rfl⟩ | ⟨-, -, -, rfl⟩⟩ := resolveValue_ok.mp h
  · exact fits_read ht _
  · exact fits_read ht _

/-- A word written inside the tape keeps the tape's form and its words. -/
theorem TapeOk.write {a v : Int} (hpos : 0 ≤ a) (hlt : a < (s.tape.size : Int)) (hv : Fits s.cfg.wordBits v) :
    (s.tape.write a.toNat v).wf ∧ ∀ c ∈ (s.tape.write a.toNat v).cells, Fits s.cfg.wordBits c.2 := by
  obtain ⟨hwf, hwords⟩ := ht
  refine ⟨Memory.wf_write hwf (by omega) v, fun c hc => ?_⟩
  obtain ⟨rfl, -⟩ | hc := Memory.mem_cells_write hc
  · exact hv
  · exact hwords c hc

end Words

/-! ## The writes of an instruction keep the invariant -/

section Commits

variable {s t : State} {i : Instr} (hcfg : ConfigOk s) (htape : TapeOk s) (h : Commits s i t)
include h

include hcfg in
theorem Commits.configOk : ConfigOk t := by
  unfold ConfigOk
  rw [h.cfg_eq, h.tape_size_eq]
  exact hcfg

include hcfg htape in
/-- An instruction stores narrowed results, comparison words and input words, all inside the tape (R42, R102, R110, R130,
R131). -/
theorem Commits.tapeOk : TapeOk t := by
  obtain ⟨hwidth, hinput, -⟩ := hcfg
  cases h with
  | add ha hb hd hr h0 h1 => exact TapeOk.write htape h0 h1 (fits_narrow hr)
  | mul ha hb hd hr h0 h1 => exact TapeOk.write htape h0 h1 (fits_narrow hr)
  | inp hd hv h0 h1 => exact TapeOk.write htape h0 h1 (hinput _ (List.mem_of_getElem? hv))
  | lt ha hb hd h0 h1 => exact TapeOk.write htape h0 h1 (fits_lessWord hwidth _ _)
  | eq ha hb hd h0 h1 => exact TapeOk.write htape h0 h1 (fits_equalWord hwidth _ _)
  | _ => exact htape

/-- An instruction that runs from a `PC` on the tape leaves it at most three past the end (R23). -/
theorem Commits.pc_le (hpc : s.pc < s.tape.size) : t.pc ≤ t.tape.size + 3 := by
  cases h <;> simp only [Memory.size_write] <;> omega

/-- IN takes a word that is there, so `IN_CUR` does not pass the end of the input (R27). -/
theorem Commits.inCur_le (hin : s.inCur ≤ s.cfg.inputLen) : t.inCur ≤ t.cfg.inputLen := by
  cases h with
  | inp hd hv h0 h1 => exact (List.getElem?_eq_some_iff.mp hv).1
  | _ => exact hin

/-- OUT moves `OUT_CUR` with the length of `OUT` (R28). -/
theorem Commits.outCur_eq (hout : s.outCur = s.out.length) : t.outCur = t.out.length := by
  cases h with
  | out hd hv => simp [hout]
  | _ => exact hout

include htape in
/-- OUT appends a word of the tape (R111). -/
theorem Commits.fits_out (hout : ∀ v ∈ s.out, Fits s.cfg.wordBits v) : ∀ v ∈ t.out, Fits t.cfg.wordBits v := by
  cases h with
  | out hd hv =>
    refine List.forall_mem_append.mpr ⟨hout, ?_⟩
    exact List.forall_mem_singleton.mpr (fits_memRead htape hv)
  | _ => exact hout

theorem Commits.faultRecordZero (hz : FaultRecordZero s) : FaultRecordZero t := by
  rw [faultRecordZero_iff] at hz ⊢
  rw [h.faultRecord_eq, hz]

theorem Commits.status_ne_faulted (hs : s.status = .running) : t.status ≠ .faulted := by
  obtain ht | ht := h.status_cases <;> simp [ht, hs]

/-- An instruction that does not fault keeps the invariant. -/
theorem Commits.inv (hinv : s.Inv) (hs : s.status = .running) (hpc : s.pc < s.tape.size) : t.Inv := by
  obtain ⟨hcfg, htape, ⟨-, hin, hcur, hout⟩, -, hzero⟩ := hinv
  refine ⟨h.configOk hcfg, h.tapeOk hcfg htape,
    ⟨h.pc_le hpc, h.inCur_le hin, h.outCur_eq hcur, h.fits_out htape hout⟩, fun hf => ?_, fun _ => ?_⟩
  · exact absurd hf (h.status_ne_faulted hs)
  · exact h.faultRecordZero (hzero (by simp [hs]))

end Commits

/-! ## Every fault request makes a sound fault record -/

/-- What makes the record of a fault sound when fault entry writes it: the part of `FaultRecordSound` that speaks of the
arguments of `raise Fault` (R12, R25, R173, R174). -/
def RequestSound (s : State) (f : FaultRequest) : Prop :=
  f.kind ≠ .none ∧
  (f.access ≠ .none ↔ f.kind = .invalidAddress) ∧
  Fits s.cfg.wordBits f.value ∧
  (f.kind = .inputExhausted → s.inCur = s.cfg.inputLen ∧ f.value = (s.inCur : Int)) ∧
  (f.kind = .arithmeticOverflow → s.cfg.overflowMode = .fault ∧ f.value = 0)

/-- Fault entry copies the request into the record and takes the rest from the state before the step (R176). -/
theorem RequestSound.faultRecordSound {s : State} {f : FaultRequest} (hf : RequestSound s f) :
    FaultRecordSound (s.takeFault f) := by
  obtain ⟨hkind, haccess, hvalue, hinput, hoverflow⟩ := hf
  exact ⟨hkind, haccess, rfl, rfl, hvalue, hinput, hoverflow⟩

/-- Fault entry with a sound request keeps the invariant. -/
theorem RequestSound.inv_takeFault {s : State} {f : FaultRequest} (hf : RequestSound s f) (hinv : s.Inv) :
    (s.takeFault f).Inv := by
  obtain ⟨hcfg, htape, hregs, -, -⟩ := hinv
  exact ⟨hcfg, htape, hregs, fun _ => hf.faultRecordSound, fun hs => absurd rfl hs⟩

theorem requestSound_invalidAddress {s : State} {acc : FaultAccess} {a : Int} (hacc : acc ≠ .none)
    (ha : Fits s.cfg.wordBits a) : RequestSound s ⟨.invalidAddress, acc, a⟩ := by
  simpa [RequestSound, hacc] using ha

theorem requestSound_unknownOpcode {s : State} {op : Int} (hop : Fits s.cfg.wordBits op) :
    RequestSound s ⟨.unknownOpcode, .none, op⟩ := by
  simpa [RequestSound] using hop

theorem requestSound_invalidMode {s : State} {d : Int} (hd : Fits s.cfg.wordBits d) :
    RequestSound s ⟨.invalidMode, .none, d⟩ := by
  simpa [RequestSound] using hd

theorem requestSound_arithmeticOverflow {s : State} (hmode : s.cfg.overflowMode = .fault) :
    RequestSound s ⟨.arithmeticOverflow, .none, 0⟩ := by
  simpa [RequestSound, hmode] using fits_zero s.cfg.wordBits

theorem requestSound_inputExhausted {s : State} (hin : s.inCur = s.cfg.inputLen)
    (hfits : Fits s.cfg.wordBits (s.inCur : Int)) : RequestSound s ⟨.inputExhausted, .none, (s.inCur : Int)⟩ := by
  simpa [RequestSound, hin] using hfits

/-- The opcode of a word has at most two digits, and is negative for a negative word (R61). -/
theorem opcodeOf_bounds (w : Int) : -100 < opcodeOf w ∧ opcodeOf w < 100 :=
  ⟨Int.lt_tmod_of_pos w (by decide), Int.tmod_lt_of_pos w (by decide)⟩

/-- A decimal digit of a word, negative for a negative word (R10). -/
theorem digit_bounds (w : Int) (k : Nat) : -10 < digit w k ∧ digit w k < 10 :=
  ⟨Int.lt_tmod_of_pos _ (by decide), Int.tmod_lt_of_pos _ (by decide)⟩

/-- The digit that an `InvalidMode` fault records is the mode digit of the word. -/
theorem modeOf_other {w d : Int} {n : Nat} (h : modeOf w n = .other d) : d = digit w (n + 1) := by
  have hdigit : (Mode.ofDigit (digit w (n + 1))).digit = d := congrArg Mode.digit h
  rw [← hdigit, Mode.digit_ofDigit]

/-- The overflow check faults in the mode `Fault` only (R174). -/
theorem requestSound_of_narrow_error {s : State} {f : FaultRequest} {r : Int} (h : narrow s.cfg r = .error f) :
    RequestSound s f := by
  obtain ⟨-, hmode, rfl⟩ := narrow_error.mp h
  exact requestSound_arithmeticOverflow hmode

section Requests

variable {s : State} {f : FaultRequest} (hinv : s.Inv)
include hinv

/-- Reading a raw operand word faults with an index at most three past the end of the tape (R80). -/
theorem requestSound_of_argRead_error (hpc : s.pc < s.tape.size) {k : Nat} (hk : k ≤ 3)
    (h : argRead s k = .error f) : RequestSound s f := by
  obtain ⟨⟨-, -, -, hsize⟩, -⟩ := hinv
  obtain ⟨-, rfl⟩ := argRead_error.mp h
  exact requestSound_invalidAddress (by decide) (fits_natCast (by omega))

/-- A value operand faults with its mode digit, with the index of its raw word, or with its raw word (R81). -/
theorem requestSound_of_resolveValue_error (hpc : s.pc < s.tape.size) {k n : Nat} (hk : k ≤ 3) {w : Int}
    (h : resolveValue s k (modeOf w n) = .error f) : RequestSound s f := by
  have ⟨⟨hwidth, _⟩, htape, _⟩ := hinv
  obtain ⟨d, hd, rfl⟩ | ⟨-, hend, rfl⟩ | ⟨-, -, -, rfl⟩ := resolveValue_error.mp h
  · have hdigit := digit_bounds w (n + 1)
    rw [← modeOf_other hd] at hdigit
    exact requestSound_invalidMode (fits_of_small hwidth (by omega) (by omega))
  · exact requestSound_of_argRead_error hinv hpc hk (argRead_error.mpr ⟨hend, rfl⟩)
  · exact requestSound_invalidAddress (by decide) (fits_read htape _)

/-- The input check fails only at the end of the input, with `IN_CUR = M` (R173). -/
theorem requestSound_of_inRead_error (h : inRead s = .error f) : RequestSound s f := by
  obtain ⟨⟨-, -, hlen, -⟩, -, ⟨-, hin, -⟩, -⟩ := hinv
  obtain ⟨hend, rfl⟩ := inRead_error.mp h
  exact requestSound_inputExhausted (by omega) (fits_natCast (by omega))

/-- Fetch faults with `PC`, at most three past the end of the tape (R151). -/
theorem requestSound_fetch : RequestSound s ⟨.invalidAddress, .fetch, (s.pc : Int)⟩ := by
  obtain ⟨⟨-, -, -, hsize⟩, -, ⟨hpc, -⟩, -⟩ := hinv
  exact requestSound_invalidAddress (by decide) (fits_natCast (by omega))

/-- The unknown opcode is a remainder below 100 (R171). -/
theorem requestSound_opcodeOf (w : Int) : RequestSound s ⟨.unknownOpcode, .none, opcodeOf w⟩ := by
  obtain ⟨⟨hwidth, -⟩, -⟩ := hinv
  have hop := opcodeOf_bounds w
  exact requestSound_unknownOpcode (fits_of_small hwidth (by omega) (by omega))

/-- Every fault of the instruction that the word at `PC` decodes to is sound: the value it records is an index near the
tape, a tape word, a mode digit, `IN_CUR` or 0. -/
theorem Raises.requestSound {i : Instr} {w : Int} (hpc : s.pc < s.tape.size) (hi : decode w = .ok i)
    (h : Raises s i f) : RequestSound s f := by
  obtain ⟨-, hmodes⟩ := decode_ok.mp hi
  have ⟨_, htape, _⟩ := hinv
  cases h with
  | operand1 _ h =>
    rw [hmodes] at h
    exact requestSound_of_resolveValue_error hinv hpc (by decide) h
  | operand2 _ _ h =>
    rw [hmodes] at h
    exact requestSound_of_resolveValue_error hinv hpc (by decide) h
  | address hk h => exact requestSound_of_argRead_error hinv hpc hk h
  | addOverflow _ _ h => exact requestSound_of_narrow_error h
  | mulOverflow _ _ h => exact requestSound_of_narrow_error h
  | input h => exact requestSound_of_inRead_error hinv h
  | write hd h =>
    obtain ⟨-, rfl⟩ := memWrite_error.mp h
    exact requestSound_invalidAddress (by decide) (fits_resolveAddress htape hd)
  | read hd h =>
    obtain ⟨-, rfl⟩ := memRead_error.mp h
    exact requestSound_invalidAddress (by decide) (fits_resolveAddress htape hd)
  | jump hv h =>
    obtain ⟨-, rfl⟩ := jumpTo_error.mp h
    exact requestSound_invalidAddress (by decide) (fits_resolveValue htape hv)

end Requests

/-- Settles O18, by what a step can do: nothing, fault entry with a sound request, or the writes of an instruction. -/
theorem stepKeepsTheInvariant : Obligations.StepKeepsTheInvariant := by
  unfold Obligations.StepKeepsTheInvariant
  intro s t hinv h
  obtain ⟨-, rfl⟩ | ⟨-, -, rfl⟩ | ⟨-, -, rfl⟩ | ⟨-, hpc, i, f, hi, -, hraises, rfl⟩ | ⟨hs, hpc, i, -, -, hcommits⟩ :=
    step_cases h
  · exact hinv
  · exact (requestSound_fetch hinv).inv_takeFault hinv
  · exact (requestSound_opcodeOf hinv _).inv_takeFault hinv
  · exact (hraises.requestSound hinv hpc hi).inv_takeFault hinv
  · exact hcommits.inv hinv hs hpc

end Sys2Proof.Machine

/-! PROOFS. The registers of `10_state.md` in a step: the status (R24), the codes and the isolation of the fault record
(R25, R26), and the ranges and moves of `PC`, `IN_CUR` and `OUT` (R23, R27, R28). -/

namespace Sys2Proof.Machine

/-! ## A step, with its three kinds of fault taken together -/

/-- A step request changes nothing in a terminal status; a step is fault entry or the writes of the instruction at
`PC`. -/
theorem step_stays_or_faults_or_commits {s t : State} (h : step s = .next t) :
    (s.status ≠ .running ∧ t = s) ∨
    (s.status = .running ∧ ∃ f, t = s.takeFault f) ∨
    (s.status = .running ∧ s.pc < s.tape.size ∧ ∃ i, decode (s.tape.read s.pc) = .ok i ∧ Commits s i t) := by
  obtain ⟨hs, ht⟩ | ⟨hs, -, ht⟩ | ⟨hs, -, ht⟩ | ⟨hs, -, i, f, -, -, -, ht⟩ | ⟨hs, hpc, i, hi, -, hc⟩ := step_cases h
  · exact .inl ⟨hs, ht⟩
  · exact .inr (.inl ⟨hs, _, ht⟩)
  · exact .inr (.inl ⟨hs, _, ht⟩)
  · exact .inr (.inl ⟨hs, _, ht⟩)
  · exact .inr (.inr ⟨hs, hpc, i, hi, hc⟩)

/-- A step that leaves the machine running completes the instruction at `PC`. -/
theorem commits_of_step_of_running {s t : State} {i : Instr} (h : step s = .next t) (hs : s.status = .running)
    (hi : decode (s.tape.read s.pc) = .ok i) (ht : t.status = .running) : Commits s i t := by
  obtain ⟨hns, -⟩ | ⟨-, f, rfl⟩ | ⟨-, -, j, hj, hc⟩ := step_stays_or_faults_or_commits h
  · exact absurd hs hns
  · cases ht
  · obtain rfl : i = j := Except.ok.inj (hi.symm.trans hj)
    exact hc

/-! ## The status (R24) -/

/-- HALT is the only instruction whose writes touch the status (R140). -/
theorem Commits.status_eq_or_halt {s t : State} {i : Instr} (h : Commits s i t) :
    t.status = s.status ∨ (t.status = .halted ∧ ∃ m, i = .halt m) := by
  cases h with
  | halt => exact .inr ⟨rfl, _, rfl⟩
  | _ => exact .inl rfl

theorem step_of_not_running {s t : State} (h : step s = .next t) (hs : s.status ≠ .running) : t = s := by
  obtain ⟨-, ht⟩ | ⟨hr, -⟩ | ⟨hr, -⟩ := step_stays_or_faults_or_commits h
  · exact ht
  · exact absurd hr hs
  · exact absurd hr hs

/-- Settles O12: fault entry faults, only a HALT among the instructions changes the status, and a terminal status has no
step. -/
theorem statusTransitions : Obligations.StatusTransitions := by
  unfold Obligations.StatusTransitions
  refine ⟨⟨rfl, rfl, rfl, fun x => by cases x <;> decide⟩, rfl, fun s t h => ?_, fun s t h hs => ?_⟩
  · obtain ⟨-, rfl⟩ | ⟨hs, f, rfl⟩ | ⟨hs, -, i, hi, hc⟩ := step_stays_or_faults_or_commits h
    · exact .inl rfl
    · exact .inr (.inr ⟨hs, rfl⟩)
    · obtain ht | ⟨ht, m, rfl⟩ := hc.status_eq_or_halt
      · exact .inl ht
      · exact .inr (.inl ⟨hs, ht, m, hi⟩)
  · rw [step_of_not_running h hs]

/-! ## The fault record (R25, R26) -/

/-- Settles O14: the table of R25, and the codes its rows leave out. -/
theorem faultCodes : Obligations.FaultCodes := by
  unfold Obligations.FaultCodes
  refine ⟨rfl, rfl, fun k => ?_, fun a => ?_⟩
  · cases k <;> decide
  · cases a <;> decide

theorem step_faultRecord_eq {s t : State} (h : step s = .next t)
    (hf : ¬ (s.status = .running ∧ t.status = .faulted)) : t.faultRecord = s.faultRecord := by
  obtain ⟨-, rfl⟩ | ⟨hs, f, rfl⟩ | ⟨-, -, i, -, hc⟩ := step_stays_or_faults_or_commits h
  · rfl
  · exact absurd ⟨hs, rfl⟩ hf
  · exact hc.faultRecord_eq

/-- Settles O15: of all a step can do, only fault entry writes the record. -/
theorem faultRecordIsWrittenOnlyAtFaultEntry : Obligations.FaultRecordIsWrittenOnlyAtFaultEntry := by
  unfold Obligations.FaultRecordIsWrittenOnlyAtFaultEntry
  refine ⟨faultRecordZero_iff.mpr rfl, fun s t => step_faultRecord_eq, fun s t h ht hz => ?_⟩
  rw [faultRecordZero_iff] at hz ⊢
  rw [step_faultRecord_eq h fun hf => ht hf.2, hz]

section WithRecord

variable (s : State) (r : FaultRecord)

theorem resolveValue_withRecord (k : Nat) (m : Mode) :
    resolveValue (withRecord s r) k m = resolveValue s k m := rfl

theorem resolveAddress_withRecord (k : Nat) :
    resolveAddress (withRecord s r) k = resolveAddress s k := rfl

theorem memRead_withRecord (acc : FaultAccess) (a : Int) :
    memRead acc (withRecord s r) a = memRead acc s a := rfl

theorem inRead_withRecord : inRead (withRecord s r) = inRead s := rfl

theorem memWrite_withRecord (a v : Int) :
    memWrite (withRecord s r) a v = (withRecord · r) <$> memWrite s a v := by
  unfold memWrite
  split <;> rfl

theorem jumpTo_withRecord (v : Int) :
    (withRecord s r).jumpTo v = (withRecord · r) <$> s.jumpTo v := by
  unfold State.jumpTo
  split <;> rfl

/-- Fault entry writes every field of the record, so it hides the one before it (R176). -/
theorem takeFault_withRecord (f : FaultRequest) : (withRecord s r).takeFault f = s.takeFault f := rfl

theorem storeBinary_withRecord (m : Modes) (f : Int → Int → Except FaultRequest Int) :
    storeBinary m (withRecord s r) f = (withRecord · r) <$> storeBinary m s f := by
  simp only [storeBinary, resolveValue_withRecord, resolveAddress_withRecord, memWrite_withRecord, map_bind,
    bind_map_left]
  rfl

theorem jumpWhen_withRecord (jumps : Int → Bool) (m : Modes) :
    jumpWhen jumps m (withRecord s r) = (withRecord · r) <$> jumpWhen jumps m s := by
  simp only [jumpWhen, resolveValue_withRecord, jumpTo_withRecord, map_bind]
  congr 1
  funext c
  split
  · simp only [map_bind]
  · rfl

/-- An instruction attempts the same writes, or the same fault, whatever the record before it. -/
theorem attempt_withRecord (i : Instr) : attempt i (withRecord s r) = (withRecord · r) <$> attempt i s := by
  cases i with
  | add m => exact storeBinary_withRecord s r m _
  | mul m => exact storeBinary_withRecord s r m _
  | inp m =>
    simp only [attempt, resolveAddress_withRecord, inRead_withRecord, memWrite_withRecord, map_bind, bind_map_left]
    rfl
  | out m =>
    simp only [attempt, resolveAddress_withRecord, memRead_withRecord, map_bind]
    rfl
  | jt m => exact jumpWhen_withRecord s r _ m
  | jf m => exact jumpWhen_withRecord s r _ m
  | lt m => exact storeBinary_withRecord s r m _
  | eq m => exact storeBinary_withRecord s r m _
  | halt m => rfl

end WithRecord

/-- Settles O16: the attempt does not depend on the record, fault entry hides it, and an instruction's writes keep it. -/
theorem noInstructionReadsTheFaultRecord : Obligations.NoInstructionReadsTheFaultRecord := by
  unfold Obligations.NoInstructionReadsTheFaultRecord
  intro i s t r hs h
  obtain ⟨f, hf, -, rfl⟩ | ⟨ht, hc⟩ := exec_cases h
  · have hr : attempt i (withRecord s r) = .error f := by rw [attempt_withRecord, hf]; rfl
    rw [exec_of_error hr, takeFault_withRecord, if_pos (State.takeFault_status s f)]
  · have hr : attempt i (withRecord s r) = .ok (withRecord t r) := by rw [attempt_withRecord, ht]; rfl
    rw [exec_of_ok hr, if_neg (hc.status_ne_faulted hs)]

/-! ## The invariant at reset (R35, R190) -/

/-- Settles O19: the parameters of reset are admitted, and its tape, its output and its record are empty. -/
theorem resetMeetsTheInvariant : Obligations.ResetMeetsTheInvariant := by
  unfold Obligations.ResetMeetsTheInvariant
  have hcfg : ConfigOk State.reset := by decide
  have htape : TapeOk State.reset := ⟨reset_tape_wf, List.forall_mem_nil _⟩
  have hregs : RegistersOk State.reset := by decide
  exact ⟨hcfg, htape, hregs, fun hf => absurd hf (by decide), fun _ => faultRecordZero_iff.mpr rfl⟩

/-! ## `PC`, `OUT` and the input cursor (R23, R27, R28) -/

/-- Settles O22: an instruction runs from a `PC` on the tape and leaves it at most three past the end; fault entry and a
terminal status leave it where it was. -/
theorem pcStaysInRange : Obligations.PcStaysInRange := by
  unfold Obligations.PcStaysInRange
  intro s t hpc h
  obtain ⟨-, rfl⟩ | ⟨-, f, rfl⟩ | ⟨-, hlt, i, -, hc⟩ := step_stays_or_faults_or_commits h
  · exact hpc
  · exact hpc
  · exact hc.pc_le hlt

/-- An OUT that completes appends the tape word that its operand indexes (R28, R111). -/
theorem Commits.out_of_out {s t : State} {m : Modes} (h : Commits s (.out m) t) :
    t.out = s.out ++ [s.tape.read (rawWord s 1).toNat] ∧ t.outCur = s.outCur + 1 := by
  cases h with
  | out hd hv =>
    obtain ⟨-, rfl⟩ := argRead_ok.mp hd
    obtain ⟨-, -, rfl⟩ := memRead_ok.mp hv
    exact ⟨rfl, rfl⟩

/-- Only OUT writes the output sequence and its cursor (R28). -/
theorem Commits.out_eq_or_out {s t : State} {i : Instr} (h : Commits s i t) :
    (t.out = s.out ∧ t.outCur = s.outCur) ∨ (t.status = s.status ∧ ∃ m, i = .out m) := by
  cases h with
  | out => exact .inr ⟨rfl, _, rfl⟩
  | _ => exact .inl ⟨rfl, rfl⟩

theorem step_out_eq_or_out {s t : State} (h : step s = .next t) :
    (t.out = s.out ∧ t.outCur = s.outCur) ∨
    (s.status = .running ∧ t.status = .running ∧ s.pc < s.tape.size ∧
      ∃ m, decode (s.tape.read s.pc) = .ok (.out m)) := by
  obtain ⟨-, rfl⟩ | ⟨-, f, rfl⟩ | ⟨hs, hpc, i, hi, hc⟩ := step_stays_or_faults_or_commits h
  · exact .inl ⟨rfl, rfl⟩
  · exact .inl ⟨rfl, rfl⟩
  · obtain hout | ⟨ht, m, rfl⟩ := hc.out_eq_or_out
    · exact .inl hout
    · exact .inr ⟨hs, ht.trans hs, hpc, m, hi⟩

theorem step_outCur_eq {s t : State} (h : step s = .next t) (hout : s.outCur = s.out.length) :
    t.outCur = t.out.length := by
  obtain ⟨-, rfl⟩ | ⟨-, f, rfl⟩ | ⟨-, -, i, -, hc⟩ := step_stays_or_faults_or_commits h
  · exact hout
  · exact hout
  · exact hc.outCur_eq hout

/-- Settles O23: OUT is the one instruction that writes the output, and its completing step leaves the machine running. -/
theorem outputIsAppendOnly : Obligations.OutputIsAppendOnly := by
  unfold Obligations.OutputIsAppendOnly
  refine ⟨⟨rfl, rfl⟩, fun s t m h hs _ hi ht => ?_, fun s t => step_out_eq_or_out, fun s t => step_outCur_eq,
    fun s t h ht => ?_⟩
  · exact (commits_of_step_of_running h hs hi ht).out_of_out
  · obtain ⟨hout, -⟩ | ⟨-, hr, -⟩ := step_out_eq_or_out h
    · exact hout
    · cases ht.symm.trans hr

/-- An IN that completes consumes the word at `IN_CUR` and stores it at the destination (R27, R110). -/
theorem Commits.consumes_of_inp {s t : State} {m : Modes} (h : Commits s (.inp m) t) :
    t.status = s.status ∧ t.inCur = s.inCur + 1 ∧ s.inCur < s.cfg.inputLen ∧
      s.cfg.input[s.inCur]? = some (t.tape.read (rawWord s 1).toNat) := by
  cases h with
  | inp hd hv h0 h1 =>
    obtain ⟨-, rfl⟩ := argRead_ok.mp hd
    exact ⟨rfl, rfl, (List.getElem?_eq_some_iff.mp hv).1, by rw [hv, Memory.read_write_same]⟩

/-- Only IN moves the input cursor (R27). -/
theorem Commits.inCur_eq_or_inp {s t : State} {i : Instr} (h : Commits s i t) :
    t.inCur = s.inCur ∨ ∃ m, i = .inp m := by
  cases h with
  | inp => exact .inr ⟨_, rfl⟩
  | _ => exact .inl rfl

/-- Settles O24: IN is the one instruction that moves the cursor, and it completes only with a word left to consume. -/
theorem inputIsConsumedInOrder : Obligations.InputIsConsumedInOrder := by
  unfold Obligations.InputIsConsumedInOrder
  refine ⟨rfl, fun s t m h hs _ hi ht => ?_, fun s t h => ?_, fun s t h hin => ?_⟩
  · obtain ⟨-, hcur, -⟩ := (commits_of_step_of_running h hs hi ht).consumes_of_inp
    exact hcur
  · obtain ⟨-, rfl⟩ | ⟨-, f, rfl⟩ | ⟨hs, -, i, hi, hc⟩ := step_stays_or_faults_or_commits h
    · exact .inl rfl
    · exact .inl rfl
    · obtain hcur | ⟨m, rfl⟩ := hc.inCur_eq_or_inp
      · exact .inl hcur
      · obtain ⟨ht, hmove⟩ := hc.consumes_of_inp
        exact .inr ⟨hs, ht.trans hs, ⟨m, hi⟩, hmove⟩
  · obtain ⟨-, rfl⟩ | ⟨-, f, rfl⟩ | ⟨-, -, i, -, hc⟩ := step_stays_or_faults_or_commits h
    · exact hin
    · exact hin
    · exact hc.inCur_le hin

end Sys2Proof.Machine

/-! PROOFS. The memory of `20_memory.md`: `MemRead` and `MemWrite` (R41, R42), the canonical form of the sparse tape and
the sequence of words it holds (R40, log entry 5), the fault of a destination outside the tape (R42, R170), and the
fetch of a word just stored (R54). -/

namespace Sys2Proof.Machine

/-! ## `MemRead` and `MemWrite` (R41, R42) -/

theorem memRead_of_outOfTape {s : State} {a : Int} (h : OutOfTape s a) (acc : FaultAccess) :
    memRead acc s a = .error ⟨.invalidAddress, acc, a⟩ := if_pos h

theorem memWrite_of_outOfTape {s : State} {a : Int} (h : OutOfTape s a) (v : Int) :
    memWrite s a v = .error ⟨.invalidAddress, .write, a⟩ := if_pos h

theorem outOfTape_of_not_inTape {s : State} {a : Int} (h : ¬ InTape s a) : OutOfTape s a := by
  unfold InTape at h
  omega

theorem memWrite_of_inTape {s : State} {a : Int} (h : InTape s a) (v : Int) :
    memWrite s a v = .ok { s with tape := s.tape.write a.toNat v } := memWrite_ok.mpr ⟨h.1, h.2, rfl⟩

/-- Settles O25: the range check is `MemRead`'s own, and a fault it raises ends the step in fault entry. -/
theorem memReadChecksTheRange : Obligations.MemReadChecksTheRange := by
  unfold Obligations.MemReadChecksTheRange
  refine ⟨fun s acc a h => memRead_of_outOfTape h acc, fun s acc a k h => ?_, fun s acc a h => ?_⟩
  · rw [memRead_of_outOfTape h acc, error_bind, commit_error]
    exact ⟨_, rfl, rfl, rfl, rfl, rfl⟩
  · exact memRead_ok.mpr ⟨Int.natCast_nonneg a, Int.ofNat_lt.mpr h, rfl⟩

/-- A write inside the tape changes no other read: the tape keeps its length, and two different indices of the tape are
two different places of it. -/
theorem memRead_write_other {s : State} {a b : Int} (ha : InTape s a) (hb : b ≠ a) (acc : FaultAccess) (v : Int) :
    memRead acc { s with tape := s.tape.write a.toNat v } b = memRead acc s b := by
  unfold memRead
  refine ite_congr rfl (fun _ => rfl) fun ho => ?_
  have hne : b.toNat ≠ a.toNat := by omega
  rw [Memory.read_write_other _ hne]

/-- Settles O26: the write goes to one place of the tape, and reads at other places do not see it. -/
theorem memWriteChangesOneWord : Obligations.MemWriteChangesOneWord := by
  unfold Obligations.MemWriteChangesOneWord
  refine ⟨fun s a v h => memWrite_of_outOfTape h v, fun s a v h => ?_⟩
  refine ⟨_, memWrite_of_inTape h v, fun acc => ?_, fun acc b hb => memRead_write_other h hb acc v, rfl⟩
  exact memRead_ok.mpr ⟨h.1, h.2, (Memory.read_write_same _ _ _).symm⟩

/-! ## The canonical form of the tape (log entry 5) -/

/-- A word other than the unlisted one is read only where it is listed. -/
theorem mem_of_lookupCell {a : Nat} {v : Int} {cs : List (Nat × Word)} (h : lookupCell cs a = v)
    (hv : v ≠ Memory.unlisted) : (a, v) ∈ cs := by
  induction cs with
  | nil => exact absurd h.symm hv
  | cons c cs ih =>
    rw [lookupCell] at h
    split at h
    · next hc =>
      subst hc h
      exact List.mem_cons_self
    · exact List.mem_cons_of_mem _ (ih h)

/-- In a list in index order, a listed cell is what a read at its index finds. -/
theorem lookupCell_of_mem {cs : List (Nat × Word)} (hcs : cs.Pairwise (fun c d => c.1 < d.1)) {c : Nat × Word}
    (h : c ∈ cs) : lookupCell cs c.1 = c.2 := by
  induction cs with
  | nil => cases h
  | cons d cs ih =>
    obtain ⟨hd, hcs⟩ := List.pairwise_cons.mp hcs
    obtain rfl | h := List.mem_cons.mp h
    · exact if_pos rfl
    · rw [lookupCell, if_neg (hd c h).ne]
      exact ih hcs h

/-- The cells of a canonical tape are its indices with their words, where the word is not the unlisted one. -/
theorem Memory.mem_cells_iff {m : Memory} (h : m.wf) {c : Nat × Word} :
    c ∈ m.cells ↔ c.1 < m.size ∧ c.2 ≠ Memory.unlisted ∧ m.read c.1 = c.2 := by
  obtain ⟨hsorted, hcells⟩ := h
  constructor
  · intro hc
    obtain ⟨hsize, hne⟩ := hcells c hc
    exact ⟨hsize, hne, lookupCell_of_mem hsorted hc⟩
  · rintro ⟨-, hne, hread⟩
    exact mem_of_lookupCell hread hne

/-- Lists of cells in index order with the same cells are the same list. -/
theorem eq_of_pairwise_of_mem_iff {cs ds : List (Nat × Word)} (hcs : cs.Pairwise (fun c d => c.1 < d.1))
    (hds : ds.Pairwise (fun c d => c.1 < d.1)) (h : ∀ c, c ∈ cs ↔ c ∈ ds) : cs = ds := by
  have : Std.Irrefl (fun c d : Nat × Word => c.1 < d.1) := ⟨fun c => lt_irrefl c.1⟩
  have : Std.Antisymm (fun c d : Nat × Word => c.1 < d.1) := ⟨fun c d hcd hdc => absurd hdc hcd.asymm⟩
  exact hcs.eq_of_mem_iff hds h

/-- Settles O27: the reads of a canonical tape determine its cells, and the index order determines their list. -/
theorem tapeFormIsCanonical : Obligations.TapeFormIsCanonical := by
  unfold Obligations.TapeFormIsCanonical
  intro m m' h h' hsize hread
  have hcells : m.cells = m'.cells := by
    refine eq_of_pairwise_of_mem_iff h.1 h'.1 fun c => ?_
    rw [Memory.mem_cells_iff h, Memory.mem_cells_iff h', ← hsize]
    exact and_congr_right fun hc => by rw [hread c.1 hc]
  cases m
  cases m'
  cases hsize
  cases hcells
  rfl

/-- An instruction writes at most one word, inside the tape (R42). -/
theorem Commits.tape_eq_or_write {s t : State} {i : Instr} (h : Commits s i t) :
    t.tape = s.tape ∨ ∃ a v, a < s.tape.size ∧ t.tape = s.tape.write a v := by
  cases h with
  | add ha hb hd hr h0 h1 => exact .inr ⟨_, _, by omega, rfl⟩
  | mul ha hb hd hr h0 h1 => exact .inr ⟨_, _, by omega, rfl⟩
  | inp hd hv h0 h1 => exact .inr ⟨_, _, by omega, rfl⟩
  | lt ha hb hd h0 h1 => exact .inr ⟨_, _, by omega, rfl⟩
  | eq ha hb hd h0 h1 => exact .inr ⟨_, _, by omega, rfl⟩
  | _ => exact .inl rfl

/-- Settles O21: a step leaves the tape or writes one word inside it. -/
theorem stepKeepsTheTapeForm : Obligations.StepKeepsTheTapeForm := by
  unfold Obligations.StepKeepsTheTapeForm
  intro s t hwf h
  obtain ⟨-, rfl⟩ | ⟨-, f, rfl⟩ | ⟨-, -, i, -, hc⟩ := step_stays_or_faults_or_commits h
  · exact hwf
  · exact hwf
  · obtain ht | ⟨a, v, ha, ht⟩ := hc.tape_eq_or_write
    · rwa [ht]
    · rw [ht]
      exact Memory.wf_write hwf ha v

/-! ## The tape as a sequence of words (R40) -/

@[simp] theorem Memory.length_toWords (m : Memory) : m.toWords.length = m.size := by simp [Memory.toWords]

@[simp] theorem Memory.getElem_toWords (m : Memory) (a : Nat) (h : a < m.toWords.length) :
    m.toWords[a] = m.read a := by simp [Memory.toWords]

theorem Memory.toWords_ofWords (ws : List Word) : (Memory.ofWords ws).toWords = ws := by
  refine List.ext_getElem (Memory.length_toWords _) fun a h h' => ?_
  rw [Memory.getElem_toWords, Memory.read_ofWords, List.getD_eq_getElem _ _ h']

/-- A write is the write at that place of the sequence, also past its end, where both leave the sequence. -/
theorem Memory.toWords_write (m : Memory) (a : Nat) (v : Int) : (m.write a v).toWords = m.toWords.set a v := by
  refine List.ext_getElem (by simp) fun b h h' => ?_
  rw [Memory.getElem_toWords, List.getElem_set]
  split
  · next hab => rw [hab, Memory.read_write_same]
  · next hab => rw [Memory.read_write_other _ (Ne.symm hab), Memory.getElem_toWords]

/-- Settles O28: both sequences have the same word at every index. -/
theorem tapeIsASequenceOfWords : Obligations.TapeIsASequenceOfWords := by
  unfold Obligations.TapeIsASequenceOfWords
  exact ⟨Memory.toWords_ofWords, fun m a v _ => m.toWords_write a v⟩

/-! ## Instructions that store: what is left of them once their operands are there -/

theorem narrow_of_fits {c : Config} {r : Int} (h : Fits c.wordBits r) : narrow c r = .ok r :=
  narrow_ok.mpr (.inl ⟨h, rfl⟩)

theorem narrow_of_wrap {c : Config} {r : Int} (h : ¬ Fits c.wordBits r) (hmode : c.overflowMode = .wrap) :
    narrow c r = .ok (wrap c.wordBits r) := narrow_ok.mpr (.inr ⟨h, hmode, rfl⟩)

/-- An exact result that is a word, or any result in the mode `Wrap`, passes the overflow check (R102). -/
theorem exists_narrow_ok {c : Config} {r : Int} (h : Fits c.wordBits r ∨ c.overflowMode = .wrap) :
    ∃ v, narrow c r = .ok v := by
  by_cases hr : Fits c.wordBits r
  · exact ⟨_, narrow_of_fits hr⟩
  · exact ⟨_, narrow_of_wrap hr (h.resolve_left hr)⟩

/-- IN with its operand on the tape and an input word is the write of that word and the two moves (R110). -/
theorem attempt_inp {s : State} {m : Modes} {v : Int} (hd : HasOperand s 1) (hv : s.cfg.input[s.inCur]? = some v) :
    attempt (.inp m) s = memWrite s (rawWord s 1) v >>= fun t => pure (t.consumeInput.advance 2) := by
  simp only [attempt, resolveAddress_of_hasOperand hd, inRead_ok.mpr hv, ok_bind]

section Store

variable {s : State} {m : Modes} {i : Instr} {f : Int → Int → Except FaultRequest Int} {a b r : Int}
  (ha : ValueIs s 1 m.mode1 a) (hb : ValueIs s 2 m.mode2 b) (hi : attempt i s = storeBinary m s f) (hr : f a b = .ok r)
include ha hb hr

/-- An F3 instruction with its operands on the tape and a result is the write of the result and the advance. -/
theorem storeBinary_of_valueIs (hd : HasOperand s 3) :
    storeBinary m s f = memWrite s (rawWord s 3) r >>= fun t => pure (t.advance 4) := by
  simp only [storeBinary, valueIs_iff.mp ha, valueIs_iff.mp hb, resolveAddress_of_hasOperand hd, hr, ok_bind]

include hi

/-- The destination is checked last, and its fault discards the result (R42, R156). -/
theorem exec_store_outside (hd : HasOperand s 3) (hout : ¬ InTape s (rawWord s 3)) :
    exec i s = .next (faultedState s .invalidAddress .write (rawWord s 3)) := by
  have herr : attempt i s = .error ⟨.invalidAddress, .write, rawWord s 3⟩ := by
    rw [hi, storeBinary_of_valueIs ha hb hr hd, memWrite_of_outOfTape (outOfTape_of_not_inTape hout), error_bind]
  rw [exec_of_error herr, takeFault_eq_faultedState (by decide)]

/-- A result stored at `PC + 4` is the next instruction word (R54). -/
theorem fetch_after_store (hpc : s.pc + 4 < s.tape.size) (hraw : rawWord s 3 = ((s.pc + 4 : Nat) : Int)) :
    ∃ t, exec i s = .next t ∧ fetch t = .ok r := by
  have hin : InTape s (rawWord s 3) := by omega
  have hok : attempt i s = .ok { s with tape := s.tape.write (rawWord s 3).toNat r, pc := s.pc + 4 } := by
    rw [hi, storeBinary_of_valueIs ha hb hr (by omega), memWrite_of_inTape hin, ok_bind]
    rfl
  refine ⟨_, exec_of_ok hok, fetch_ok.mpr ⟨hpc, ?_⟩⟩
  rw [hraw, Int.toNat_natCast, Memory.read_write_same]

end Store

/-- IN with a destination outside the tape consumes nothing (R42, D8; log entry 9). -/
theorem exec_inp_outside {s : State} {m : Modes} (hd : HasOperand s 1) (hout : ¬ InTape s (rawWord s 1))
    (hin : s.inCur < s.cfg.inputLen) :
    exec (.inp m) s = .next (faultedState s .invalidAddress .write (rawWord s 1)) := by
  have herr : attempt (.inp m) s = .error ⟨.invalidAddress, .write, rawWord s 1⟩ := by
    rw [attempt_inp hd (List.getElem?_eq_getElem hin), memWrite_of_outOfTape (outOfTape_of_not_inTape hout), error_bind]
  rw [exec_of_error herr, takeFault_eq_faultedState (by decide)]

/-- IN with the word after it as destination stores the next instruction word (R54). -/
theorem fetch_after_inp {s : State} {m : Modes} {v : Int} (hpc : s.pc + 2 < s.tape.size)
    (hraw : rawWord s 1 = ((s.pc + 2 : Nat) : Int)) (hv : s.cfg.input[s.inCur]? = some v) :
    ∃ t, exec (.inp m) s = .next t ∧ fetch t = .ok v := by
  have hin : InTape s (rawWord s 1) := by omega
  have hok : attempt (.inp m) s =
      .ok { s with tape := s.tape.write (rawWord s 1).toNat v, inCur := s.inCur + 1, pc := s.pc + 2 } := by
    rw [attempt_inp (by omega) hv, memWrite_of_inTape hin, ok_bind]
    rfl
  refine ⟨_, exec_of_ok hok, fetch_ok.mpr ⟨hpc, ?_⟩⟩
  rw [hraw, Int.toNat_natCast, Memory.read_write_same]

/-- Settles O44: the write is the last check of the five storing instructions. -/
theorem destinationOutsideTheTapeFaults : Obligations.DestinationOutsideTheTapeFaults := by
  unfold Obligations.DestinationOutsideTheTapeFaults
  refine ⟨fun m s a b ha hb hd hout => ⟨fun hsum => ?_, fun hprod => ?_, ?_, ?_⟩, fun m s => exec_inp_outside⟩
  · obtain ⟨r, hr⟩ := exists_narrow_ok hsum
    exact exec_store_outside ha hb rfl hr hd hout
  · obtain ⟨r, hr⟩ := exists_narrow_ok hprod
    exact exec_store_outside ha hb rfl hr hd hout
  · exact exec_store_outside ha hb rfl rfl hd hout
  · exact exec_store_outside ha hb rfl rfl hd hout

/-- Settles O39: the five storing instructions advance `PC` to the word they wrote. -/
theorem nextFetchSeesTheWrite : Obligations.NextFetchSeesTheWrite := by
  unfold Obligations.NextFetchSeesTheWrite
  refine ⟨fun s m v => fetch_after_inp, fun s m a b ha hb hpc hraw => ?_⟩
  refine ⟨fun hfit => ?_, fun hfit hwrap => ?_, fun hfit => ?_, fun hfit hwrap => ?_, ?_, ?_⟩
  · exact fetch_after_store ha hb rfl (narrow_of_fits hfit) hpc hraw
  · exact fetch_after_store ha hb rfl (narrow_of_wrap hfit hwrap) hpc hraw
  · exact fetch_after_store ha hb rfl (narrow_of_fits hfit) hpc hraw
  · exact fetch_after_store ha hb rfl (narrow_of_wrap hfit hwrap) hpc hraw
  · exact fetch_after_store ha hb rfl rfl hpc hraw
  · exact fetch_after_store ha hb rfl rfl hpc hraw

end Sys2Proof.Machine

/-! PROOFS. The encoding of `30_encoding.md`: a word is its opcode and its mode digits in decimal (R60 to R62), so that
decoding and encoding undo each other (R71); which words have a row in the opcode map (R66, R69, R70); and the digits
that change nothing (R64, R69). -/

namespace Sys2Proof

/-! ## The mode digits of a word that is not negative (R60, R62) -/

theorem modesOf_of_nonneg {w : Int} (h : 0 ≤ w) :
    modesOf w = ⟨.ofDigit (w / 100 % 10), .ofDigit (w / 1000 % 10), .ofDigit (w / 10000 % 10)⟩ := by
  simp [modesOf, modeOf, digit_of_nonneg h]

/-- A word that is not negative carries decimal mode digits. -/
theorem wellFormed_modesOf {w : Int} (h : 0 ≤ w) : (modesOf w).WellFormed := by
  rw [modesOf_of_nonneg h]
  refine ⟨Mode.wellFormed_ofDigit ?_ ?_, Mode.wellFormed_ofDigit ?_ ?_, Mode.wellFormed_ofDigit ?_ ?_⟩ <;> omega

/-! ## Encoding an instruction and decoding its word (R61, R62, R71) -/

/-- Every instruction's word has the shape R60 gives it. -/
theorem wordShape : (i : Instr) → Laws.WordShape.Statement i
  | .add m => Laws.WordShape.add m
  | .mul m => Laws.WordShape.mul m
  | .inp m => Laws.WordShape.inp m
  | .out m => Laws.WordShape.out m
  | .jt m => Laws.WordShape.jt m
  | .jf m => Laws.WordShape.jf m
  | .lt m => Laws.WordShape.lt m
  | .eq m => Laws.WordShape.eq m
  | .halt m => Laws.WordShape.halt m

theorem Instr.opcode_bounds (i : Instr) : 0 ≤ i.opcode ∧ i.opcode < 100 := by
  cases i <;> simp [Instr.opcode]

/-- The opcode fills the low two digits and each mode one digit above them, so no digit carries into the next. -/
theorem modesOf_encode {i : Instr} (h : i.WellFormed) : modesOf (encode i) = i.modes := by
  obtain ⟨hnonneg, -⟩ := wordShape i h
  obtain ⟨w1, w2, w3⟩ := h
  have hop := i.opcode_bounds
  have b1 := Mode.digit_bounds w1
  have b2 := Mode.digit_bounds w2
  have b3 := Mode.digit_bounds w3
  have d1 : encode i / 100 % 10 = i.modes.mode1.digit := by
    unfold encode
    omega
  have d2 : encode i / 1000 % 10 = i.modes.mode2.digit := by
    unfold encode
    omega
  have d3 : encode i / 10000 % 10 = i.modes.mode3.digit := by
    unfold encode
    omega
  rw [modesOf_of_nonneg hnonneg, d1, d2, d3, Mode.ofDigit_digit w1, Mode.ofDigit_digit w2, Mode.ofDigit_digit w3]

/-- Settles O1: the word of an instruction has its opcode and its modes, and those determine what a word decodes to. -/
theorem decodeOfEncodeIsTheInstruction : Obligations.DecodeOfEncodeIsTheInstruction := by
  unfold Obligations.DecodeOfEncodeIsTheInstruction
  intro i h
  obtain ⟨-, -, hop, -⟩ := wordShape i h
  exact decode_ok.mpr ⟨hop.symm, (modesOf_encode h).symm⟩

/-- An instruction with the opcode and the modes of a word of at most five digits encodes to the sum of that word's
digits, each at its place. -/
theorem encode_eq_of_opcode_of_modes {w : Int} {i : Instr} (h0 : 0 ≤ w) (h5 : w ≤ 99999) (hop : i.opcode = opcodeOf w)
    (hm : i.modes = modesOf w) : encode i = w := by
  rw [encode, hop, hm, opcodeOf_of_nonneg h0, modesOf_of_nonneg h0]
  simp only [Mode.digit_ofDigit]
  omega

/-- Settles O2: a decoded instruction has the word's opcode and modes, which are all five digits of the word. -/
theorem encodeOfDecodeIsTheWord : Obligations.EncodeOfDecodeIsTheWord := by
  unfold Obligations.EncodeOfDecodeIsTheWord
  intro w i h0 h5 hi
  obtain ⟨hop, hm⟩ := decode_ok.mp hi
  refine ⟨?_, encode_eq_of_opcode_of_modes h0 h5 hop hm⟩
  rw [Instr.WellFormed, hm]
  exact wellFormed_modesOf h0

/-! ## Which words have a row (R66, R69, R70) -/

/-- The opcode table has a row for each opcode of the map, and no other row. -/
theorem opcodeTable_opcodes : opcodeTable.map (·.opcode) = Machine.opcodeList := rfl

theorem lookup_eq_none {op : Int} {m : Modes} : lookup op m = none ↔ op ∉ Machine.opcodeList := by
  simp [lookup, ← opcodeTable_opcodes]

/-- Instructions with the same opcode are made by the same row of the table. -/
theorem exists_row_of_opcode_eq {i i' : Instr} (h : i.opcode = i'.opcode) :
    ∃ r ∈ opcodeTable, r.make i.modes = i ∧ r.make i'.modes = i' := by
  obtain ⟨r, hr, hi⟩ := Option.map_eq_some_iff.mp (lookup_opcode i)
  refine ⟨r, List.mem_of_find?_eq_some hr, hi, ?_⟩
  have hi' := lookup_opcode i'
  rw [← h, lookup, hr] at hi'
  exact Option.some.inj hi'

theorem exists_decode_ok_of_mem {w : Int} (h : opcodeOf w ∈ Machine.opcodeList) :
    ∃ i, decode w = .ok i ∧ i.opcode = opcodeOf w := by
  have hrow : lookup (opcodeOf w) (modesOf w) ≠ none := fun hnone => lookup_eq_none.mp hnone h
  obtain ⟨i, hi⟩ := Option.ne_none_iff_exists'.mp hrow
  exact ⟨i, decode_ok.mpr (lookup_some hi), (lookup_some hi).1⟩

theorem decode_of_not_mem {w : Int} (h : opcodeOf w ∉ Machine.opcodeList) :
    decode w = .error (.unknownOpcode (opcodeOf w)) := by
  rw [decode, lookup_eq_none.mpr h]

theorem pos_of_mem_opcodeList : ∀ op ∈ Machine.opcodeList, 0 < op := by decide

/-- The opcode of a negative word is not positive (R61). -/
theorem opcodeOf_not_mem_of_neg {w : Int} (h : w < 0) : opcodeOf w ∉ Machine.opcodeList := by
  intro hmem
  have hpos := pos_of_mem_opcodeList _ hmem
  have hneg : 0 ≤ (-w).tmod 100 := Int.tmod_nonneg 100 (by omega)
  rw [Int.neg_tmod, ← opcodeOf] at hneg
  omega

/-- Settles O3: a word decodes exactly when its opcode is in the map, and on a word that is not negative the opcode is
the low two digits. -/
theorem everyWordDecodesOrIsUnknown : Obligations.EveryWordDecodesOrIsUnknown := by
  unfold Obligations.EveryWordDecodesOrIsUnknown
  refine ⟨fun w h0 hmem => ?_, fun w h0 hmem => ?_, fun w hneg => decode_of_not_mem (opcodeOf_not_mem_of_neg hneg)⟩
  · rw [← opcodeOf_of_nonneg h0] at hmem ⊢
    exact exists_decode_ok_of_mem hmem
  · rw [← opcodeOf_of_nonneg h0] at hmem ⊢
    exact decode_of_not_mem hmem

/-! ## Digits above the modes (R64) -/

/-- The decoder reads the opcode and the modes of a word, and nothing else of it (R61, R62). -/
theorem decode_congr {w w' : Int} (hop : opcodeOf w = opcodeOf w') (hm : modesOf w = modesOf w') :
    decode w = decode w' := by
  rw [decode, decode, hop, hm]

/-- Settles O4: the opcode and the modes of a word that is not negative are digits below `d5`. -/
theorem digitsAboveTheModesAreIgnored : Obligations.DigitsAboveTheModesAreIgnored := by
  unfold Obligations.DigitsAboveTheModesAreIgnored
  intro w k h0 hk
  have hsum : 0 ≤ w + 100000 * k := by omega
  have hop : (w + 100000 * k) % 100 = w % 100 := by omega
  have d2 : (w + 100000 * k) / 100 % 10 = w / 100 % 10 := by omega
  have d3 : (w + 100000 * k) / 1000 % 10 = w / 1000 % 10 := by omega
  have d4 : (w + 100000 * k) / 10000 % 10 = w / 10000 % 10 := by omega
  refine decode_congr ?_ ?_
  · rw [opcodeOf_of_nonneg hsum, opcodeOf_of_nonneg h0, hop]
  · rw [modesOf_of_nonneg hsum, modesOf_of_nonneg h0, d2, d3, d4]

/-! ## Words written out from the spec (R60, R66, R69) -/

/-- Settles O5: the decoder computes each of the words. -/
theorem specWordsDecode : Obligations.SpecWordsDecode := by
  unfold Obligations.SpecWordsDecode
  exact ⟨rfl, rfl, rfl, rfl, rfl, rfl, rfl, rfl, rfl, rfl⟩

end Sys2Proof

namespace Sys2Proof.Machine

/-! ## Digits an instruction does not consult (R66, R69, R84) -/

/-- The destination's mode digit is not consulted (R84). -/
theorem storeBinary_congr {m m' : Modes} (h1 : m.mode1 = m'.mode1) (h2 : m.mode2 = m'.mode2) (s : State)
    (f : Int → Int → Except FaultRequest Int) : storeBinary m s f = storeBinary m' s f := by
  rw [storeBinary, storeBinary, h1, h2]

/-- A jump has no third operand, and does not consult its mode digit (R66). -/
theorem jumpWhen_congr {m m' : Modes} (h1 : m.mode1 = m'.mode1) (h2 : m.mode2 = m'.mode2) (s : State)
    (jumps : Int → Bool) : jumpWhen jumps m s = jumpWhen jumps m' s := by
  rw [jumpWhen, jumpWhen, h1, h2]

/-- An instruction's meaning reads at most the first two of its modes, and neither where it does not consult the first
(R66): IN, OUT and HALT consult none. -/
theorem exec_make_congr {r : OpcodeRow} (hr : r ∈ opcodeTable) {m m' : Modes}
    (h : consultsMode1 (r.make m) = true → m.mode1 = m'.mode1 ∧ m.mode2 = m'.mode2) (s : State) :
    exec (r.make m) s = exec (r.make m') s := by
  have hstore (hc : consultsMode1 (r.make m) = true) (f) :
      commit s (storeBinary m s f) = commit s (storeBinary m' s f) :=
    congrArg (commit s) (storeBinary_congr (h hc).1 (h hc).2 s f)
  have hjump (hc : consultsMode1 (r.make m) = true) (jumps) :
      commit s (jumpWhen jumps m s) = commit s (jumpWhen jumps m' s) :=
    congrArg (commit s) (jumpWhen_congr (h hc).1 (h hc).2 s jumps)
  simp only [opcodeTable, List.mem_cons, List.not_mem_nil, or_false] at hr
  obtain rfl | rfl | rfl | rfl | rfl | rfl | rfl | rfl | rfl := hr
  · exact hstore rfl _
  · exact hstore rfl _
  · rfl
  · rfl
  · exact hjump rfl _
  · exact hjump rfl _
  · exact hstore rfl _
  · exact hstore rfl _
  · rfl

theorem consultsMode1_of_opcode_mem {i : Instr} (h : i.opcode ∈ ([3, 4, 99] : List Int)) : consultsMode1 i = false := by
  cases i <;> simp_all [Instr.opcode, consultsMode1]

/-- Settles O6: both words have the same opcode, and the same first two modes where the instruction consults any. -/
theorem unconsultedDigitsHaveNoEffect : Obligations.UnconsultedDigitsHaveNoEffect := by
  unfold Obligations.UnconsultedDigitsHaveNoEffect
  intro w w' i i' s h0 h0' hi hi' hdigits
  obtain ⟨hop, hm⟩ := decode_ok.mp hi
  obtain ⟨hop', hm'⟩ := decode_ok.mp hi'
  rw [opcodeOf_of_nonneg h0] at hop
  rw [opcodeOf_of_nonneg h0'] at hop'
  rw [modesOf_of_nonneg h0] at hm
  rw [modesOf_of_nonneg h0'] at hm'
  obtain ⟨r, hr, hri, hri'⟩ := exists_row_of_opcode_eq (i := i) (i' := i') (by omega)
  rw [← hri, ← hri']
  refine exec_make_congr hr (fun hconsults => ?_) s
  obtain hlow | ⟨-, hmem⟩ := hdigits
  · have d2 : w / 100 % 10 = w' / 100 % 10 := by omega
    have d3 : w / 1000 % 10 = w' / 1000 % 10 := by omega
    rw [hm, hm', d2, d3]
    exact ⟨rfl, rfl⟩
  · rw [← hop] at hmem
    rw [hri, consultsMode1_of_opcode_mem hmem] at hconsults
    cases hconsults

end Sys2Proof.Machine

/-! PROOFS. The operands of `40_operands.md`: how an operand fails to resolve (R80, R81, R85), how an instruction passes
the first such fault on (R156), and the ARG and READ faults this gives (R170). -/

namespace Sys2Proof.Machine

/-! ## How one operand fails to resolve (R80, R81, R83, R85) -/

section Operand

variable {s : State} {k : Nat} {m : Mode}

theorem resolveAddress_of_missing (h : s.tape.size ≤ s.pc + k) :
    resolveAddress s k = .error ⟨.invalidAddress, .arg, ((s.pc + k : Nat) : Int)⟩ := argRead_error.mpr ⟨h, rfl⟩

theorem resolveValue_of_missing (hm : IsMode m) (h : s.tape.size ≤ s.pc + k) :
    resolveValue s k m = .error ⟨.invalidAddress, .arg, ((s.pc + k : Nat) : Int)⟩ :=
  resolveValue_error.mpr (.inr (.inl ⟨hm, h, rfl⟩))

theorem resolveValue_of_not_inTape (hm : m = .position) (hk : HasOperand s k) (h : ¬ InTape s (rawWord s k)) :
    resolveValue s k m = .error ⟨.invalidAddress, .read, rawWord s k⟩ :=
  resolveValue_error.mpr (.inr (.inr ⟨hm, hk, outOfTape_of_not_inTape h, rfl⟩))

end Operand

/-! ## The meaning of an instruction, by its format (R65, R66) -/

theorem exists_attempt_eq_storeBinary {i : Instr} (h : i.format = .f3) (s : State) :
    ∃ f, attempt i s = storeBinary i.modes s f := by
  cases i with
  | add m => exact ⟨_, rfl⟩
  | mul m => exact ⟨_, rfl⟩
  | lt m => exact ⟨_, rfl⟩
  | eq m => exact ⟨_, rfl⟩
  | _ => cases h

/-- A jump is taken on the very values on which it consults the mode of its target (R120, R121). -/
theorem attempt_eq_jumpWhen {i : Instr} (h : i.format = .f2) (s : State) :
    attempt i s = jumpWhen (consultsMode2 i) i.modes s := by
  cases i with
  | jt m => rfl
  | jf m => rfl
  | _ => cases h

/-- The instructions with value operands are those of the formats F2 and F3. -/
theorem consultsMode1_iff {i : Instr} : consultsMode1 i = true ↔ i.format = .f2 ∨ i.format = .f3 := by
  cases i <;> simp [consultsMode1, Instr.format]

theorem consultsMode1_of_consultsMode2 {i : Instr} {v : Int} (h : consultsMode2 i v = true) :
    consultsMode1 i = true := by
  cases i with
  | inp m => cases h
  | out m => cases h
  | halt m => cases h
  | _ => rfl

/-! ## An operand's fault is the instruction's, once the operands before it resolve (R156) -/

section Faults

variable {i : Instr} {s : State} {e : FaultRequest} {a b : Int}

theorem attempt_of_operand1_error (hc : consultsMode1 i = true) (he : resolveValue s 1 i.modes.mode1 = .error e) :
    attempt i s = .error e := by
  obtain hi | hi := consultsMode1_iff.mp hc
  · rw [attempt_eq_jumpWhen hi]
    exact jumpWhen_error.mpr (.inl he)
  · obtain ⟨f, hf⟩ := exists_attempt_eq_storeBinary hi s
    rw [hf]
    exact storeBinary_error.mpr (.inl he)

theorem attempt_of_operand2_error (ha : ValueIs s 1 i.modes.mode1 a) (hc : consultsMode2 i a = true)
    (he : resolveValue s 2 i.modes.mode2 = .error e) : attempt i s = .error e := by
  obtain hi | hi := consultsMode1_iff.mp (consultsMode1_of_consultsMode2 hc)
  · rw [attempt_eq_jumpWhen hi]
    exact jumpWhen_error.mpr (.inr ⟨a, valueIs_iff.mp ha, hc, .inl he⟩)
  · obtain ⟨f, hf⟩ := exists_attempt_eq_storeBinary hi s
    rw [hf]
    exact storeBinary_error.mpr (.inr ⟨a, valueIs_iff.mp ha, .inl he⟩)

theorem attempt_of_operand3_error (hi : i.format = .f3) (ha : ValueIs s 1 i.modes.mode1 a)
    (hb : ValueIs s 2 i.modes.mode2 b) (he : resolveAddress s 3 = .error e) : attempt i s = .error e := by
  obtain ⟨f, hf⟩ := exists_attempt_eq_storeBinary hi s
  rw [hf]
  exact storeBinary_error.mpr (.inr ⟨a, valueIs_iff.mp ha, .inr ⟨b, valueIs_iff.mp hb, .inl he⟩⟩)

/-- IN and OUT resolve the address of their one operand first (R110, R111). -/
theorem attempt_of_address1_error (hi : i.format = .f1) (he : resolveAddress s 1 = .error e) :
    attempt i s = .error e := by
  cases i with
  | inp m => exact except_bind_error.mpr (.inl he)
  | out m => exact except_bind_error.mpr (.inl he)
  | _ => cases hi

/-- OUT dereferences its operand whatever its mode digit (R111). -/
theorem attempt_out_of_not_inTape {m : Modes} (hk : HasOperand s 1) (h : ¬ InTape s (rawWord s 1)) :
    attempt (.out m) s = .error ⟨.invalidAddress, .read, rawWord s 1⟩ := by
  simp only [attempt, resolveAddress_of_hasOperand hk, ok_bind,
    memRead_of_outOfTape (outOfTape_of_not_inTape h), error_bind]

/-- The fault of any access but the fetch is entered with the word at `PC` in the record (R25, R176). -/
theorem exec_faulted {kind : FaultKind} {access : FaultAccess} {v : Int} (h : attempt i s = .error ⟨kind, access, v⟩)
    (haccess : access ≠ .fetch) : exec i s = .next (faultedState s kind access v) := by
  rw [exec_of_error h, takeFault_eq_faultedState haccess]

end Faults

/-- Settles O42: each operand's raw word is read once the operands before it resolve, and a mode is checked before its
word. -/
theorem missingOperandFaults : Obligations.MissingOperandFaults := by
  unfold Obligations.MissingOperandFaults
  refine ⟨fun i s hi hm h => exec_faulted ?_ (by decide), fun i s v hv hc hm h => exec_faulted ?_ (by decide),
    fun i s a b hi ha hb h => exec_faulted ?_ (by decide)⟩
  · cases hf : i.format with
    | f0 => exact absurd hf hi
    | f1 => exact attempt_of_address1_error hf (resolveAddress_of_missing h)
    | f2 =>
      have hc := consultsMode1_iff.mpr (.inl hf)
      exact attempt_of_operand1_error hc (resolveValue_of_missing (hm hc) h)
    | f3 =>
      have hc := consultsMode1_iff.mpr (.inr hf)
      exact attempt_of_operand1_error hc (resolveValue_of_missing (hm hc) h)
  · exact attempt_of_operand2_error hv hc (resolveValue_of_missing hm h)
  · exact attempt_of_operand3_error hi ha hb (resolveAddress_of_missing h)

/-- Settles O43: the dereference is the last check of a Position operand, and OUT has no mode check before it. -/
theorem dereferenceOutsideTheTapeFaults : Obligations.DereferenceOutsideTheTapeFaults := by
  unfold Obligations.DereferenceOutsideTheTapeFaults
  refine ⟨fun i s hc hm hk h => exec_faulted ?_ (by decide), fun i s v hv hc hm hk h => exec_faulted ?_ (by decide),
    fun m s hk h => exec_faulted (attempt_out_of_not_inTape hk h) (by decide)⟩
  · exact attempt_of_operand1_error hc (resolveValue_of_not_inTape hm hk h)
  · exact attempt_of_operand2_error hv hc (resolveValue_of_not_inTape hm hk h)

end Sys2Proof.Machine

/-! PROOFS. ADD and MUL of `41_arithmetic.md` (R100 to R102): the result of an F3 instruction, the overflow fault and where
alone it comes from (R174), and the frame of the four F3 instructions (R130, R131, R155). -/

namespace Sys2Proof.Machine

/-! ## The outcome of an F3 instruction whose operands resolve (R100, R102) -/

section Store

variable {s : State} {m : Modes} {i : Instr} {f : Int → Int → Except FaultRequest Int} {a b : Int}
  (ha : ValueIs s 1 m.mode1 a) (hb : ValueIs s 2 m.mode2 b) (hi : attempt i s = storeBinary m s f)
  (hd : HasOperand s 3)
include ha hb hi hd

/-- A result with its destination on the tape is stored, and the instruction completes. -/
theorem exec_store_inside {r : Int} (hr : f a b = .ok r) (hin : InTape s (rawWord s 3)) :
    exec i s = .next { s with tape := s.tape.write (rawWord s 3).toNat r, pc := s.pc + 4 } := by
  obtain ⟨h0, h1⟩ := hin
  exact exec_of_ok (hi.trans (storeBinary_ok.mpr
    ⟨a, b, _, r, valueIs_iff.mp ha, valueIs_iff.mp hb, resolveAddress_of_hasOperand hd, hr, h0, h1, rfl⟩))

/-- A fault of the result itself comes before the check of the destination (R156). -/
theorem attempt_store_of_result_error {e : FaultRequest} (he : f a b = .error e) : attempt i s = .error e :=
  hi.trans (storeBinary_error.mpr (.inr ⟨a, valueIs_iff.mp ha, .inr ⟨b, valueIs_iff.mp hb,
    .inr ⟨_, resolveAddress_of_hasOperand hd, .inl he⟩⟩⟩))

/-- The three outcomes of the overflow decision on an exact result `r` (R102). -/
theorem exec_store_narrow {r : Int} (hf : f a b = narrow s.cfg r) :
    (Fits s.cfg.wordBits r → InTape s (rawWord s 3) →
      exec i s = .next { s with tape := s.tape.write (rawWord s 3).toNat r, pc := s.pc + 4 }) ∧
    (¬ Fits s.cfg.wordBits r → s.cfg.overflowMode = .wrap → InTape s (rawWord s 3) →
      exec i s = .next
        { s with tape := s.tape.write (rawWord s 3).toNat (wrap s.cfg.wordBits r), pc := s.pc + 4 }) ∧
    (¬ Fits s.cfg.wordBits r → s.cfg.overflowMode = .fault →
      exec i s = .next (faultedState s .arithmeticOverflow .none 0)) := by
  refine ⟨fun hfit hin => ?_, fun hfit hmode hin => ?_, fun hfit hmode => ?_⟩
  · exact exec_store_inside ha hb hi hd (hf.trans (narrow_of_fits hfit)) hin
  · exact exec_store_inside ha hb hi hd (hf.trans (narrow_of_wrap hfit hmode)) hin
  · have herr : narrow s.cfg r = .error ⟨.arithmeticOverflow, .none, 0⟩ := narrow_error.mpr ⟨hfit, hmode, rfl⟩
    exact exec_faulted (attempt_store_of_result_error ha hb hi hd (hf.trans herr)) (by decide)

end Store

/-- Settles O29: ADD is the F3 instruction whose result is the overflow decision on the exact sum. -/
theorem addResult : Obligations.AddResult := by
  unfold Obligations.AddResult
  exact fun s m a b ha hb hd => exec_store_narrow ha hb (i := .add m) rfl hd rfl

/-- Settles O30: MUL is the F3 instruction whose result is the overflow decision on the exact product. -/
theorem mulResult : Obligations.MulResult := by
  unfold Obligations.MulResult
  exact fun s m a b ha hb hd => exec_store_narrow ha hb (i := .mul m) rfl hd rfl

/-! ## Where `ArithmeticOverflow` comes from (R102, R174) -/

section Overflow

variable {s : State} {f : FaultRequest}

theorem kind_ne_of_resolveAddress_error {k : Nat} (h : resolveAddress s k = .error f) :
    f.kind ≠ .arithmeticOverflow := by
  obtain ⟨-, rfl⟩ := argRead_error.mp h
  exact nofun

theorem kind_ne_of_resolveValue_error {k : Nat} {m : Mode} (h : resolveValue s k m = .error f) :
    f.kind ≠ .arithmeticOverflow := by
  obtain ⟨d, -, rfl⟩ | ⟨-, -, rfl⟩ | ⟨-, -, -, rfl⟩ := resolveValue_error.mp h
  · exact nofun
  · exact nofun
  · exact nofun

/-- Of the faults an instruction can raise, the overflow is the overflow decision of ADD or MUL on the exact result. -/
theorem Raises.narrow_of_arithmeticOverflow {i : Instr} (h : Raises s i f) (hkind : f.kind = .arithmeticOverflow) :
    ∃ m a b r, ValueIs s 1 m.mode1 a ∧ ValueIs s 2 m.mode2 b ∧ narrow s.cfg r = .error f ∧
      ((i = .add m ∧ r = a + b) ∨ (i = .mul m ∧ r = a * b)) := by
  cases h with
  | addOverflow ha hb h => exact ⟨_, _, _, _, valueIs_iff.mpr ha, valueIs_iff.mpr hb, h, .inl ⟨rfl, rfl⟩⟩
  | mulOverflow ha hb h => exact ⟨_, _, _, _, valueIs_iff.mpr ha, valueIs_iff.mpr hb, h, .inr ⟨rfl, rfl⟩⟩
  | operand1 _ h => exact absurd hkind (kind_ne_of_resolveValue_error h)
  | operand2 _ _ h => exact absurd hkind (kind_ne_of_resolveValue_error h)
  | address _ h => exact absurd hkind (kind_ne_of_resolveAddress_error h)
  | input h =>
    obtain ⟨-, rfl⟩ := inRead_error.mp h
    cases hkind
  | write _ h =>
    obtain ⟨-, rfl⟩ := memWrite_error.mp h
    cases hkind
  | read _ h =>
    obtain ⟨-, rfl⟩ := memRead_error.mp h
    cases hkind
  | jump _ h =>
    obtain ⟨-, rfl⟩ := jumpTo_error.mp h
    cases hkind

end Overflow

/-- Settles O47: of the ways a step can end, only the overflow decision of ADD and MUL records this kind. -/
theorem overflowFaultOnlyInFaultMode : Obligations.OverflowFaultOnlyInFaultMode := by
  unfold Obligations.OverflowFaultOnlyInFaultMode
  intro s t h hs ht hkind
  obtain ⟨hns, -⟩ | ⟨-, -, rfl⟩ | ⟨-, -, rfl⟩ | ⟨-, -, i, f, hi, -, hraises, rfl⟩ | ⟨-, -, i, -, -, hcommits⟩ :=
    step_cases h
  · exact absurd hs hns
  · cases hkind
  · cases hkind
  · obtain ⟨m, a, b, r, ha, hb, hnarrow, hinstr⟩ := hraises.narrow_of_arithmeticOverflow hkind
    obtain ⟨hfit, hmode, rfl⟩ := narrow_error.mp hnarrow
    refine ⟨hmode, rfl, m, a, b, ha, hb, ?_⟩
    obtain ⟨rfl, rfl⟩ | ⟨rfl, rfl⟩ := hinstr
    · exact .inl ⟨hi, hfit⟩
    · exact .inr ⟨hi, hfit⟩
  · exact absurd ht (hcommits.status_ne_faulted hs)

/-! ## The frame of ADD, MUL, LT and EQ (R155) -/

/-- An F3 instruction that completes writes one word, at its destination, and advances `PC`. -/
theorem exists_store_of_attempt_ok {i : Instr} {s t : State} (hi : i.format = .f3) (h : attempt i s = .ok t) :
    ∃ d r, resolveAddress s 3 = .ok d ∧ 0 ≤ d ∧ t = { s with tape := s.tape.write d.toNat r, pc := s.pc + 4 } := by
  obtain ⟨f, hf⟩ := exists_attempt_eq_storeBinary hi s
  rw [hf] at h
  obtain ⟨_, _, d, r, -, -, hd, -, h0, -, ht⟩ := storeBinary_ok.mp h
  exact ⟨d, r, hd, h0, ht⟩

/-- Settles O48: fault entry leaves the tape and `PC`, and a completing F3 instruction writes its destination only. -/
theorem storingInstructionsFrame : Obligations.StoringInstructionsFrame := by
  unfold Obligations.StoringInstructionsFrame
  intro m i s t hmem h
  have hformat : i.format = .f3 := by
    simp only [List.mem_cons, List.not_mem_nil, or_false] at hmem
    obtain rfl | rfl | rfl | rfl := hmem <;> rfl
  obtain ⟨f, -, -, rfl⟩ | ⟨hok, -⟩ := exec_cases h
  · exact ⟨rfl, rfl, rfl, rfl, rfl, fun _ _ => rfl, .inr ⟨rfl, rfl, rfl⟩⟩
  · obtain ⟨d, r, hd, h0, rfl⟩ := exists_store_of_attempt_ok hformat hok
    refine ⟨rfl, rfl, rfl, rfl, rfl, fun a ha => ?_, .inl ⟨rfl, rfl⟩⟩
    have hne : a ≠ d.toNat := by
      have := ha d hd
      omega
    exact Memory.read_write_other _ hne r

end Sys2Proof.Machine

/-! PROOFS. IN and OUT of `42_io.md` (R110 to R113): what each does when it completes, OUT words of any mode digit (R112),
and the frames of IN and of the four instructions that store nothing (R120, R121, R140, R155). -/

namespace Sys2Proof.Machine

/-! ## IN and OUT that complete (R110, R111) -/

/-- Settles O33: past the address and the input word only the write is left, and it is inside the tape. -/
theorem inResult : Obligations.InResult := by
  unfold Obligations.InResult
  intro s m v hd hin hv
  have hok : attempt (.inp m) s =
      .ok { s with tape := s.tape.write (rawWord s 1).toNat v, inCur := s.inCur + 1, pc := s.pc + 2 } := by
    rw [attempt_inp hd hv, memWrite_of_inTape hin, ok_bind]
    rfl
  exact exec_of_ok hok

theorem exec_out_inside {s : State} (m : Modes) (hd : HasOperand s 1) (hin : InTape s (rawWord s 1)) :
    exec (.out m) s = .next
      { s with out := s.out ++ [s.tape.read (rawWord s 1).toNat], outCur := s.outCur + 1, pc := s.pc + 2 } := by
  have hread : memRead .read s (rawWord s 1) = .ok (s.tape.read (rawWord s 1).toNat) :=
    memRead_ok.mpr ⟨hin.1, hin.2, rfl⟩
  have hok : attempt (.out m) s = .ok
      { s with out := s.out ++ [s.tape.read (rawWord s 1).toNat], outCur := s.outCur + 1, pc := s.pc + 2 } := by
    simp only [attempt, resolveAddress_of_hasOperand hd, hread, ok_bind]
    rfl
  exact exec_of_ok hok

/-- Settles O34: OUT dereferences its raw word, and no mode enters its meaning. -/
theorem outResult : Obligations.OutResult := by
  unfold Obligations.OutResult
  exact fun s m => exec_out_inside m

/-! ## OUT words with any mode digit (R112) -/

/-- A word that is not negative and ends in 04 is OUT, with whatever modes its other digits give it (R61, R66). -/
theorem decode_out_of_nonneg {w : Int} (h0 : 0 ≤ w) (hop : w % 100 = 4) : decode w = .ok (.out (modesOf w)) := by
  have hopcode : opcodeOf w = 4 := (opcodeOf_of_nonneg h0).trans hop
  exact decode_ok.mpr ⟨hopcode.symm, rfl⟩

/-- A running step from a `PC` on the tape runs the instruction there (R150, R152, R154). -/
theorem step_of_decode {s : State} {i : Instr} (hs : s.status = .running) (hpc : s.pc < s.tape.size)
    (hi : decode (s.tape.read s.pc) = .ok i) : step s = exec i s := by
  have hfetch : fetch s = .ok (s.tape.read s.pc) := fetch_ok.mpr ⟨hpc, rfl⟩
  have hinstr : fetchInstr s = .ok i := by simp only [fetchInstr, hfetch, ok_bind, dispatch, hi]
  simp only [step, stepWith, hs, hinstr]

/-- Settles O35: such a word decodes to OUT with some modes, and OUT does the same with any. -/
theorem outNeverHonoursAnImmediateDigit : Obligations.OutNeverHonoursAnImmediateDigit := by
  unfold Obligations.OutNeverHonoursAnImmediateDigit
  intro s hs hpc h0 hop hd hin
  rw [step_of_decode hs hpc (decode_out_of_nonneg h0 hop)]
  exact exec_out_inside _ hd hin

/-! ## The frame of IN (R110, R155) -/

/-- Settles O49: fault entry leaves the tape and the cursor, and a completing IN writes its destination only. -/
theorem inFrame : Obligations.InFrame := by
  unfold Obligations.InFrame
  intro m s t h
  obtain ⟨f, -, -, rfl⟩ | ⟨-, hc⟩ := exec_cases h
  · exact ⟨rfl, rfl, rfl, rfl, fun _ _ => rfl, .inr ⟨rfl, rfl, rfl, rfl⟩⟩
  · cases hc with
    | @inp _ d v hd hv h0 h1 =>
      refine ⟨rfl, rfl, rfl, rfl, fun a ha => ?_, .inl ⟨rfl, rfl, rfl⟩⟩
      have hne : a ≠ d.toNat := by
        have := ha d hd
        omega
      exact Memory.read_write_other _ hne v

/-! ## The frame of OUT, JT, JF and HALT (R111, R120, R121, R140, R155) -/

section StoreNothing

variable {m : Modes} {i : Instr} {s t : State}

theorem Commits.tape_inCur_eq_of_mem (h : Commits s i t)
    (hmem : i ∈ [Instr.out m, Instr.jt m, Instr.jf m, Instr.halt m]) : t.tape = s.tape ∧ t.inCur = s.inCur := by
  cases h with
  | add | mul | inp | lt | eq => simp at hmem
  | out | jtTaken | jtNotTaken | jfTaken | jfNotTaken | halt => exact ⟨rfl, rfl⟩

theorem Commits.out_eq_of_mem (h : Commits s i t) (hmem : i ∈ [Instr.out m, Instr.jt m, Instr.jf m, Instr.halt m])
    (hne : i ≠ .out m) : t.out = s.out ∧ t.outCur = s.outCur := by
  obtain hout | ⟨-, m', rfl⟩ := h.out_eq_or_out
  · exact hout
  · exact absurd (by simpa using hmem) hne

theorem Commits.status_eq_of_mem (h : Commits s i t) (hmem : i ∈ [Instr.out m, Instr.jt m, Instr.jf m, Instr.halt m])
    (hne : i ≠ .halt m) : t.status = s.status := by
  obtain hstatus | ⟨-, m', rfl⟩ := h.status_eq_or_halt
  · exact hstatus
  · exact absurd (by simpa using hmem) hne

theorem Commits.pc_status_of_halt (h : Commits s (.halt m) t) : t.pc = s.pc ∧ t.status = .halted := by
  cases h with
  | halt => exact ⟨rfl, rfl⟩

/-- HALT reads no operand, so it raises no fault (R140). -/
theorem attempt_halt_ne_error {f : FaultRequest} : attempt (.halt m) s ≠ .error f := nofun

end StoreNothing

/-- Settles O50: fault entry touches the status and the record only, and none of the four writes the tape or `IN_CUR`. -/
theorem instructionsThatStoreNothingFrame : Obligations.InstructionsThatStoreNothingFrame := by
  unfold Obligations.InstructionsThatStoreNothingFrame
  intro m i s t hmem h
  obtain ⟨f, hf, -, rfl⟩ | ⟨-, hc⟩ := exec_cases h
  · refine ⟨rfl, rfl, rfl, fun _ => rfl, fun _ => ⟨rfl, rfl⟩, fun hi => ?_, fun _ => .inr ⟨rfl, rfl, rfl, rfl⟩⟩
    subst hi
    exact absurd hf attempt_halt_ne_error
  · obtain ⟨htape, hcur⟩ := hc.tape_inCur_eq_of_mem hmem
    refine ⟨hc.cfg_eq, hcur, hc.tape_size_eq, fun a => by rw [htape], hc.out_eq_of_mem hmem, fun hi => ?_,
      fun hne => .inl ⟨hc.status_eq_of_mem hmem hne, hc.faultRecord_eq⟩⟩
    subst hi
    obtain ⟨hpc, hstatus⟩ := hc.pc_status_of_halt
    exact ⟨hpc, hstatus, hc.faultRecord_eq⟩

end Sys2Proof.Machine

/-! PROOFS. JT and JF of `43_jumps.md` (R120 to R123): the three outcomes of a jump whose operands resolve, and the run of a
jump to its own index. -/

namespace Sys2Proof.Machine

/-! ## The outcomes of a jump (R120, R121, R122) -/

section Jump

variable {i : Instr} {s : State} {c v : Int} (hi : i.format = .f2) (hc : ValueIs s 1 i.modes.mode1 c)
include hi hc

/-- A jump that its condition does not take advances by 3, whatever its target operand (R120, R121). -/
theorem exec_jump_notTaken (hj : consultsMode2 i c = false) : exec i s = .next { s with pc := s.pc + 3 } :=
  exec_of_ok ((attempt_eq_jumpWhen hi s).trans (jumpWhen_ok.mpr (.inr ⟨c, valueIs_iff.mp hc, hj, rfl⟩)))

variable (hj : consultsMode2 i c = true) (hv : ValueIs s 2 i.modes.mode2 v)
include hj hv

/-- A taken jump to a target on the tape makes it the `PC` (R120, R121). -/
theorem exec_jump_inside (hin : InTape s v) : exec i s = .next { s with pc := v.toNat } := by
  obtain ⟨h0, h1⟩ := hin
  exact exec_of_ok ((attempt_eq_jumpWhen hi s).trans
    (jumpWhen_ok.mpr (.inl ⟨c, v, valueIs_iff.mp hc, hj, valueIs_iff.mp hv, h0, h1, rfl⟩)))

/-- A taken jump to a target outside the tape faults in its own step (R122). -/
theorem exec_jump_outside (hout : ¬ InTape s v) : exec i s = .next (faultedState s .invalidAddress .jump v) := by
  have htarget : s.jumpTo v = .error ⟨.invalidAddress, .jump, v⟩ :=
    jumpTo_error.mpr ⟨outOfTape_of_not_inTape hout, rfl⟩
  have herr : attempt i s = .error ⟨.invalidAddress, .jump, v⟩ := (attempt_eq_jumpWhen hi s).trans
    (jumpWhen_error.mpr (.inr ⟨c, valueIs_iff.mp hc, hj, .inr ⟨v, valueIs_iff.mp hv, htarget⟩⟩))
  exact exec_faulted herr (by decide)

end Jump

/-- Settles O36: JT is the jump taken on the conditions other than 0. -/
theorem jtResult : Obligations.JtResult := by
  unfold Obligations.JtResult
  intro s m c hc
  refine ⟨fun t hne ht hin => ?_, fun h0 => ?_⟩
  · exact exec_jump_inside (i := .jt m) rfl hc (decide_eq_true hne) ht hin
  · exact exec_jump_notTaken (i := .jt m) rfl hc (decide_eq_false (not_not.mpr h0))

/-- Settles O37: JF is the jump taken on the condition 0. -/
theorem jfResult : Obligations.JfResult := by
  unfold Obligations.JfResult
  intro s m c hc
  refine ⟨fun t h0 ht hin => ?_, fun hne => ?_⟩
  · exact exec_jump_inside (i := .jf m) rfl hc (decide_eq_true h0) ht hin
  · exact exec_jump_notTaken (i := .jf m) rfl hc (decide_eq_false hne)

/-- Settles O45: the range check of the target is the last check of a taken jump, and fault entry keeps `PC`. -/
theorem jumpOutsideTheTapeFaults : Obligations.JumpOutsideTheTapeFaults := by
  unfold Obligations.JumpOutsideTheTapeFaults
  intro m s c t hc ht hout
  refine ⟨fun hne => ?_, fun h0 => ?_⟩
  · exact exec_jump_outside (i := .jt m) rfl hc (decide_eq_true hne) ht hout
  · exact exec_jump_outside (i := .jf m) rfl hc (decide_eq_true h0) ht hout

/-! ## A jump to its own index (R123, R197) -/

/-- A running state that its own step answers has no result under any bound: each turn of `run` is at the same state. -/
theorem run_eq_none_of_step_self {s : State} (hs : s.status = .running) (h : step s = .next s) (k : Nat) :
    run k s = none := by
  induction k with
  | zero => simp [run, hs]
  | succ k ih => exact (run_succ hs h k).trans ih

/-- Settles O58: such a JT sets `PC` to what it is, so its step answers the same state. -/
theorem jumpToSelfNeverEnds : Obligations.JumpToSelfNeverEnds := by
  unfold Obligations.JumpToSelfNeverEnds
  intro s m c hs hpc hi hc hne ht
  have hin : InTape s (s.pc : Int) := ⟨Int.natCast_nonneg _, Int.ofNat_lt.mpr hpc⟩
  have hself : step s = .next s := by
    rw [step_of_decode hs hpc hi]
    exact exec_jump_inside (i := .jt m) rfl hc (decide_eq_true hne) ht hin
  exact run_eq_none_of_step_self hs hself

end Sys2Proof.Machine

/-! PROOFS. LT and EQ of `44_compare.md` (R130, R131): the word a comparison answers, and the F3 instruction that stores
it. -/

namespace Sys2Proof.Machine

theorem lessWord_of_lt {a b : Int} (h : a < b) : lessWord a b = 1 := if_pos h

theorem lessWord_of_not_lt {a b : Int} (h : ¬ a < b) : lessWord a b = 0 := if_neg h

theorem equalWord_of_eq {a b : Int} (h : a = b) : equalWord a b = 1 := if_pos h

theorem equalWord_of_ne {a b : Int} (h : a ≠ b) : equalWord a b = 0 := if_neg h

/-- Settles O31: LT is the F3 instruction whose result is `lessWord`, which has no fault of its own. -/
theorem ltResult : Obligations.LtResult := by
  unfold Obligations.LtResult
  intro s m a b ha hb hd hin
  refine ⟨fun hlt => ?_, fun hge => ?_⟩
  · exact exec_store_inside ha hb (i := .lt m) rfl hd (congrArg Except.ok (lessWord_of_lt hlt)) hin
  · exact exec_store_inside ha hb (i := .lt m) rfl hd (congrArg Except.ok (lessWord_of_not_lt hge)) hin

/-- Settles O32: EQ is the F3 instruction whose result is `equalWord`, which has no fault of its own. -/
theorem eqResult : Obligations.EqResult := by
  unfold Obligations.EqResult
  intro s m a b ha hb hd hin
  refine ⟨fun heq => ?_, fun hne => ?_⟩
  · exact exec_store_inside ha hb (i := .eq m) rfl hd (congrArg Except.ok (equalWord_of_eq heq)) hin
  · exact exec_store_inside ha hb (i := .eq m) rfl hd (congrArg Except.ok (equalWord_of_ne hne)) hin

end Sys2Proof.Machine

/-! PROOFS. HALT of `45_halt.md` (R140): the HALT words, which never fault, and the step of a word whose opcode has no
row. -/

namespace Sys2Proof.Machine

theorem exec_halt (m : Modes) (s : State) : exec (.halt m) s = .next { s with status := .halted } :=
  exec_of_ok rfl

/-- A word that is not negative and ends in 99 is HALT, whatever its higher digits (R61, R66). -/
theorem decode_halt_of_nonneg {w : Int} (h0 : 0 ≤ w) (hop : w % 100 = 99) : decode w = .ok (.halt (modesOf w)) := by
  have hopcode : opcodeOf w = 99 := (opcodeOf_of_nonneg h0).trans hop
  exact decode_ok.mpr ⟨hopcode.symm, rfl⟩

/-- A running step from a `PC` on the tape faults on a word whose opcode has no row (R153, R171). -/
theorem step_of_opcodeOf_not_mem {s : State} (hs : s.status = .running) (hpc : s.pc < s.tape.size)
    (hop : opcodeOf (s.tape.read s.pc) ∉ opcodeList) :
    step s = .next (faultedState s .unknownOpcode .none (opcodeOf (s.tape.read s.pc))) := by
  have hfetch : fetch s = .ok (s.tape.read s.pc) := fetch_ok.mpr ⟨hpc, rfl⟩
  have hinstr : fetchInstr s = .error ⟨.unknownOpcode, .none, opcodeOf (s.tape.read s.pc)⟩ := by
    simp only [fetchInstr, hfetch, ok_bind, dispatch, decode_of_not_mem hop]
  simp only [step, stepWith, hs, hinstr, commit_error]
  rw [takeFault_eq_faultedState (by decide)]

/-- Settles O38: a word that ends in 99 decodes to HALT, which reads no operand, and -99 is negative, so its opcode
has no row. -/
theorem haltResult : Obligations.HaltResult := by
  unfold Obligations.HaltResult
  refine ⟨fun s m => exec_halt m s, fun m => ⟨rfl, rfl, rfl⟩, fun s hs hpc h0 hop => ?_, fun s hs hpc hw => ?_⟩
  · rw [step_of_decode hs hpc (decode_halt_of_nonneg h0 hop)]
    exact exec_halt _ s
  · have hopcode : opcodeOf (s.tape.read s.pc) = -99 := by rw [hw]; rfl
    have hneg : s.tape.read s.pc < 0 := by omega
    rw [step_of_opcodeOf_not_mem hs hpc (opcodeOf_not_mem_of_neg hneg), hopcode]

end Sys2Proof.Machine

/-! PROOFS. The execution loop of `46_execution_loop.md`: one step (R150 to R155), the dispatch FSM that computes it
(R156), `run` as the repetition of `step` and what the host observes of its end (R157 to R162). -/

namespace Sys2Proof.Machine

/-! ## One step (R150 to R155, R157) -/

/-- The state that the commit of a step leaves (R155). -/
def State.afterCommit (s : State) (r : Except FaultRequest State) : State :=
  match r with
  | .ok t => t
  | .error f => s.takeFault f

theorem commit_eq_next (s : State) (r : Except FaultRequest State) : commit s r = .next (s.afterCommit r) := by
  cases r <;> rfl

/-- A running step commits what the fetched instruction attempts, or the fault of the fetch or the dispatch. -/
theorem step_of_running {s : State} (hs : s.status = .running) :
    step s = .next (s.afterCommit (fetchInstr s >>= (attempt · s))) := by
  simp only [step, stepWith, hs]
  cases fetchInstr s with
  | ok i => exact (exec_eq_commit i s).trans (commit_eq_next s _)
  | error f => rfl

theorem step_of_terminal {s : State} (hs : s.status ≠ .running) : step s = .next s := by
  simp only [step, stepWith]
  cases h : s.status with
  | running => exact absurd h hs
  | halted => rfl
  | faulted => rfl

theorem exists_step_eq_next (s : State) : ∃ t, step s = .next t := by
  by_cases hs : s.status = .running
  · exact ⟨_, step_of_running hs⟩
  · exact ⟨s, step_of_terminal hs⟩

/-- Settles O7: the fetch and the dispatch of such a word give its instruction. -/
theorem stepRunsTheDecodedInstruction : Obligations.StepRunsTheDecodedInstruction := by
  unfold Obligations.StepRunsTheDecodedInstruction
  exact fun s i => step_of_decode

/-- Past the end of the tape the step is the entry of the fetch fault (R151). -/
theorem step_of_pc_outside {s : State} (hs : s.status = .running) (hpc : s.tape.size ≤ s.pc) :
    step s = .next (s.takeFault ⟨.invalidAddress, .fetch, (s.pc : Int)⟩) := by
  have hfetch : fetch s = .error ⟨.invalidAddress, .fetch, (s.pc : Int)⟩ := fetch_error.mpr ⟨hpc, rfl⟩
  rw [step_of_running hs, fetchInstr, hfetch]
  rfl

/-- Settles O8: the range check of the fetch is against `PC`, and after reset both `PC` and the size are 0. -/
theorem fetchReadsThePcOrFaults : Obligations.FetchReadsThePcOrFaults := by
  unfold Obligations.FetchReadsThePcOrFaults
  exact ⟨fun s hpc => fetch_ok.mpr ⟨hpc, rfl⟩, fun s => step_of_pc_outside, step_of_pc_outside rfl le_rfl⟩

/-! ## Placing an instruction (log entries 4 and 7) -/

theorem Memory.read_writeFrom_head (m : Memory) (a : Nat) (v : Int) (vs : List Word) :
    (m.writeFrom a (v :: vs)).read a = v := by
  rw [Memory.writeFrom, Memory.read_writeFrom_of_lt (Nat.lt_succ_self a), Memory.read_write_same]

/-- Settles O59: the first placed word stands at `PC`, on a tape long enough to hold it. -/
theorem placedInstructionRunsNext : Obligations.PlacedInstructionRunsNext := by
  unfold Obligations.PlacedInstructionRunsNext
  intro s nbits w i hi
  have hword : (s.withFetchWord nbits w).tape.read s.pc = tableWord nbits w 0 := Memory.read_writeFrom_head _ _ _ _
  have hpc : s.pc < (s.withFetchWord nbits w).tape.size := by
    simp [State.withFetchWord, State.placeAtPc, tableWords]
  exact step_of_decode rfl hpc ((congrArg decode hword).trans (decode_of_decodeTableWord hi))

/-! ## The dispatch FSM (R156) -/

/-- A phase with one checked operation does the first operation of what it has left to compute: its fault ends both, and
its value goes to the phases that compute the rest. -/
theorem phaseLoop_bind {s : State} {p : Phase} {l : Latches} {n : Nat} {α : Type} {x : Except FaultRequest α}
    {latch : α → Latches} {next : Latches → Phase} {rest : α → Except FaultRequest State}
    (hp : phaseStep s p l = .ofExcept (do let v ← x; pure (latch v)) next)
    (h : ∀ v, x = .ok v → phaseLoop s n (next (latch v)) (latch v) = some (s.afterCommit (rest v))) :
    phaseLoop s (n + 1) p l = some (s.afterCommit (x >>= rest)) := by
  cases x with
  | ok v => exact (phaseLoop_goto hp n).trans (h v rfl)
  | error f => exact phaseLoop_fault hp n

section Phases

variable {i : Instr} (s : State) (l : Latches) (n : Nat)

/-- OP1, OP2 and OP3 of an F3 instruction resolve its operands in the order of `storeBinary`. -/
theorem phaseLoop_operands_of_f3 (hi : i.format = .f3) {f : Int → Int → Except FaultRequest Int}
    (h : ∀ a b d, phaseLoop s n (nextPhase i false .op3)
        { l with modes := i.modes, instr := i, value1 := a, value2 := b, address := d } =
      some (s.afterCommit (do let r ← f a b; let t ← memWrite s d r; pure (t.advance 4)))) :
    phaseLoop s (n + 3) .op1 { l with modes := i.modes, instr := i } =
      some (s.afterCommit (storeBinary i.modes s f)) := by
  cases i with
  | add m | mul m | lt m | eq m =>
    exact phaseLoop_bind rfl fun a _ => phaseLoop_bind rfl fun b _ => phaseLoop_bind rfl fun d _ => h a b d
  | inp | out | jt | jf | halt => cases hi

/-- MEM and COMMIT of an F3 instruction write the stored word and advance. -/
theorem phaseLoop_mem_of_f3 (hi : l.instr.format = .f3) :
    phaseLoop s (n + 2) .mem l =
      some (s.afterCommit (do let t ← memWrite s l.address (storedWord l); pure (t.advance 4))) := by
  obtain ⟨word, opcode, modes, i, a, b, d, result, tape⟩ := l
  cases i with
  | add m | mul m | lt m | eq m =>
    refine phaseLoop_bind rfl fun t ht => ?_
    obtain ⟨-, -, rfl⟩ := memWrite_ok.mp ht
    exact phaseLoop_done rfl n
  | inp | out | jt | jf | halt => cases hi

/-- COMMIT of a jump sets `PC`: to the target where the condition takes it, past the instruction where not. -/
theorem phaseCommit_of_f2 (hi : l.instr.format = .f2) :
    phaseCommit s l = if jumpTaken l.instr l.value1 then s.setPc l.value2.toNat else s.advance 3 := by
  obtain ⟨word, opcode, modes, i, c, v, d, result, tape⟩ := l
  cases i with
  | jt m | jf m =>
    simp only [phaseCommit]
    split <;> rfl
  | add | mul | inp | out | lt | eq | halt => cases hi

/-- OP1 of a jump resolves its condition; one that is taken goes on with the target in OP2 and its range in CHECK. -/
theorem phaseLoop_of_f2 (hi : i.format = .f2) :
    phaseLoop s (n + 4) .op1 { l with modes := i.modes, instr := i } =
      some (s.afterCommit (jumpWhen (jumpTaken i) i.modes s)) := by
  cases i with
  | jt m | jf m =>
    refine phaseLoop_bind rfl fun c _ => ?_
    cases hj : jumpTaken _ c with
    | true =>
      refine phaseLoop_bind rfl fun v _ => ?_
      rw [← bind_pure (s.jumpTo v)]
      refine phaseLoop_bind rfl fun t ht => (phaseLoop_done rfl n).trans ?_
      obtain ⟨-, -, rfl⟩ := jumpTo_ok.mp ht
      rw [phaseCommit_of_f2 s _ rfl, if_pos hj]
      rfl
    | false =>
      refine (phaseLoop_done rfl (n + 2)).trans ?_
      rw [phaseCommit_of_f2 s _ rfl, if_neg (ne_true_of_eq_false hj)]
      rfl
  | add | mul | inp | out | lt | eq | halt => cases hi

end Phases

/-- From the phase after DISPATCH on, the FSM computes what the instruction attempts. -/
theorem phaseLoop_of_dispatched (s : State) (l : Latches) (i : Instr) :
    phaseLoop s 6 (nextPhase i false .dispatch) { l with modes := i.modes, instr := i } =
      some (s.afterCommit (attempt i s)) := by
  cases i with
  | add m | mul m =>
    refine phaseLoop_operands_of_f3 s l 3 rfl fun a b d => ?_
    exact phaseLoop_bind rfl fun r _ => phaseLoop_mem_of_f3 s _ 0 rfl
  | lt m | eq m => exact phaseLoop_operands_of_f3 s l 3 rfl fun a b d => phaseLoop_mem_of_f3 s _ 1 rfl
  | inp m =>
    refine phaseLoop_bind rfl fun d _ => phaseLoop_bind rfl fun v _ => phaseLoop_bind rfl fun t ht => ?_
    obtain ⟨-, -, rfl⟩ := memWrite_ok.mp ht
    exact phaseLoop_done rfl 2
  | out m => exact phaseLoop_bind rfl fun d _ => phaseLoop_bind rfl fun v _ => phaseLoop_done rfl 3
  | jt m | jf m => exact phaseLoop_of_f2 s l 2 rfl
  | halt m => exact phaseLoop_done rfl 5

theorem lookup_eq_none_of_decode_error {w : Int} {e : DecodeError} (h : decode w = .error e) :
    lookup (opcodeOf w) (modesOf w) = none := by
  unfold decode at h
  split at h
  · cases h
  · assumption

/-- The FSM, from FETCH on, computes what the fetched instruction attempts, or the fault of the fetch or the
dispatch. -/
theorem runPhases_eq (s : State) : runPhases s = some (s.afterCommit (fetchInstr s >>= (attempt · s))) := by
  obtain ⟨i, hpc, hi, hinstr⟩ | ⟨hpc, hinstr⟩ | ⟨hpc, hi, hinstr⟩ := fetchInstr_cases s
  · obtain ⟨hop, hmodes⟩ := decode_ok.mp hi
    have hlookup : lookup (opcodeOf (s.tape.read s.pc)) (modesOf (s.tape.read s.pc)) = some i := by
      rw [← hop, ← hmodes, lookup_opcode]
    rw [hinstr, runPhases, phaseLoop_dispatched (fetch_ok.mpr ⟨hpc, rfl⟩) hlookup, ← hmodes]
    exact phaseLoop_of_dispatched s
      { Latches.start s with word := s.tape.read s.pc, opcode := opcodeOf (s.tape.read s.pc) } i
  · have hfetch : fetch s = .error ⟨.invalidAddress, .fetch, (s.pc : Int)⟩ := fetch_error.mpr ⟨hpc, rfl⟩
    rw [hinstr]
    exact phaseLoop_fault (by rw [phaseStep, hfetch]; rfl) 8
  · have hfetch : fetch s = .ok (s.tape.read s.pc) := fetch_ok.mpr ⟨hpc, rfl⟩
    have hword : phaseStep s .fetch (Latches.start s) =
        .goto .decode { Latches.start s with word := s.tape.read s.pc } := by rw [phaseStep, hfetch]; rfl
    rw [hinstr, runPhases, phaseLoop_goto hword, phaseLoop_goto rfl]
    exact phaseLoop_fault (by simp only [phaseStep, lookup_eq_none_of_decode_error hi]) 6

/-- Settles O51: the step and the FSM both leave the state after the commit of the same attempt. -/
theorem phasesComputeTheStep : Obligations.PhasesComputeTheStep := by
  unfold Obligations.PhasesComputeTheStep
  exact fun s hs => ⟨_, step_of_running hs, runPhases_eq s⟩

/-! ## `run` is `step` repeated (R157, R158, R159) -/

/-- Where `run` ends the status is terminal, and the call returns the result of that state. -/
theorem run_end {k : Nat} {s t : State} {r : RunResult} (h : run k s = some (t, r)) :
    t.status ≠ .running ∧ r = t.result :=
  run_induction (P := fun _ t => t.status ≠ .running) (fun _ hs => hs) (fun _ _ _ _ _ ht => ht) h

/-- Settles O10: `step` and `run` both look at the status first, and a run ends only in a terminal one. -/
theorem terminalStatusIsFinal : Obligations.TerminalStatusIsFinal := by
  unfold Obligations.TerminalStatusIsFinal
  refine ⟨fun s hs => ⟨step_of_terminal hs, ?_⟩, fun k s hs => run_of_terminal hs k, fun k s t r h => ?_⟩
  · rw [stepRequest, step_of_terminal hs]
  · obtain ⟨ht, rfl⟩ := run_end h
    exact ⟨ht, ht⟩

/-- The state that ends a run is the first one with a terminal status that repeated steps reach. -/
theorem exists_coreRun_of_run {k : Nat} {s t : State} {r : RunResult} (h : run k s = some (t, r)) :
    ∃ j ≤ k, Host.Core.run Sys2Proof.core j s = .next t ∧
      ∀ j' < j, ∃ u, Host.Core.run Sys2Proof.core j' s = .next u ∧ (u : State).status = .running := by
  induction k generalizing s with
  | zero =>
    by_cases hs : s.status = .running
    · simp [run, hs] at h
    · cases (run_of_terminal hs 0).symm.trans h
      exact ⟨0, le_rfl, rfl, fun _ hj => absurd hj (Nat.not_lt_zero _)⟩
  | succ k ih =>
    by_cases hs : s.status = .running
    · obtain ⟨u, hu⟩ := exists_step_eq_next s
      obtain ⟨j, hj, hend, hbefore⟩ := ih ((run_succ hs hu k).symm.trans h)
      refine ⟨j + 1, Nat.succ_le_succ hj, (coreRun_succ hu j).trans hend, fun j' hj' => ?_⟩
      cases j' with
      | zero => exact ⟨s, rfl, hs⟩
      | succ j' =>
        rw [coreRun_succ hu]
        exact hbefore j' (Nat.lt_of_succ_lt_succ hj')
    · cases (run_of_terminal hs (k + 1)).symm.trans h
      exact ⟨0, Nat.zero_le _, rfl, fun _ hj => absurd hj (Nat.not_lt_zero _)⟩

/-- A terminal state that repeated steps reach ends the run under the same bound. -/
theorem run_of_coreRun {k : Nat} {s t : State} (h : Host.Core.run Sys2Proof.core k s = .next t)
    (ht : t.status ≠ .running) : run k s = some (t, t.result) := by
  induction k generalizing s with
  | zero =>
    cases h
    exact run_of_terminal ht 0
  | succ k ih =>
    by_cases hs : s.status = .running
    · obtain ⟨u, hu⟩ := exists_step_eq_next s
      exact (run_succ hs hu k).trans (ih ((coreRun_succ hu k).symm.trans h))
    · have hrest : run k s = some (t, t.result) := ih ((coreRun_succ (step_of_terminal hs) k).symm.trans h)
      rw [run_of_terminal hs, ← hrest, run_of_terminal hs]

/-- Settles O55: both repetitions take the same steps, and only `run` looks at the status between them. -/
theorem runIsStepRepeated : Obligations.RunIsStepRepeated := by
  unfold Obligations.RunIsStepRepeated
  refine ⟨fun k s t r h => ?_, fun k s t => run_of_coreRun⟩
  obtain ⟨ht, hr⟩ := run_end h
  exact ⟨hr, ht, exists_coreRun_of_run h⟩

/-! ## What the host observes of the end of a run (R158, R160, R162) -/

/-- A run keeps `OUT_CUR` at the length of `OUT` (R28). -/
theorem run_outCur_eq {k : Nat} {s t : State} {r : RunResult} (h : run k s = some (t, r))
    (hs : s.outCur = s.out.length) : t.outCur = t.out.length :=
  (run_induction (P := fun s t => s.outCur = s.out.length → t.outCur = t.out.length) (fun _ _ h => h)
    (fun _ _ _ _ hstep ht h => ht (step_outCur_eq hstep h)) h).1 hs

/-- A run that was going on comes to its end by a step of a running state. -/
theorem exists_last_step_of_run {k : Nat} {s t : State} {r : RunResult} (h : run k s = some (t, r))
    (hs : s.status = .running) : ∃ u, u.status = .running ∧ step u = .next t := by
  obtain ⟨rfl | hlast, -⟩ := run_induction
    (P := fun s t => s = t ∨ ∃ u, u.status = .running ∧ step u = .next t) (fun _ _ => .inl rfl)
    (fun s u t hs hstep hu => .inr (hu.elim (fun hut => ⟨s, hs, hut ▸ hstep⟩) id)) h
  · exact absurd hs (run_end h).1
  · exact hlast

/-- A step that halts ran a HALT word and leaves `PC` on it (R140). -/
theorem decode_eq_halt_of_step {u t : State} (h : step u = .next t) (hu : u.status = .running)
    (ht : t.status = .halted) : ∃ m, decode (t.tape.read t.pc) = .ok (.halt m) := by
  obtain ⟨hn, -⟩ | ⟨-, f, rfl⟩ | ⟨-, -, i, hi, hc⟩ := step_stays_or_faults_or_commits h
  · exact absurd hu hn
  · cases ht
  · obtain hstatus | ⟨-, m, rfl⟩ := hc.status_eq_or_halt
    · cases (ht.symm.trans hstatus).trans hu
    · cases hc
      exact ⟨m, hi⟩

/-- A step that faults records its `PC` and stays there (R176). -/
theorem faultPc_eq_of_step {u t : State} (h : step u = .next t) (hu : u.status = .running)
    (ht : t.status = .faulted) : t.faultPc = t.pc := by
  obtain ⟨hn, -⟩ | ⟨-, f, rfl⟩ | ⟨-, -, i, -, hc⟩ := step_stays_or_faults_or_commits h
  · exact absurd hu hn
  · rfl
  · exact absurd ht (hc.status_ne_faulted hu)

/-- The host's read of a tape index is the read of the tape as a sequence (R40, R160). -/
theorem State.hostTape_eq (s : State) (i : Nat) : s.hostTape i = s.tape.toWords[i]? := by
  unfold State.hostTape
  split
  · next hi => rw [List.getElem?_eq_getElem (by simpa using hi), Memory.getElem_toWords]
  · next hi => rw [List.getElem?_eq_none (by simpa using hi)]

/-- Settles O56: the observation and the reads are of the fields of the state at the end, which the last step of the run
left halted at a HALT word or faulted at `PC`. -/
theorem hostObservesTheEndOfARun : Obligations.HostObservesTheEndOfARun := by
  unfold Obligations.HostObservesTheEndOfARun
  intro k s t r h
  obtain ⟨-, rfl⟩ := run_end h
  refine ⟨rfl, rfl, rfl, rfl, fun ht => if_pos ht, fun ht => if_neg (by simp [ht]), fun i _ => t.hostTape_eq i,
    fun _ _ => rfl, rfl, rfl, rfl, rfl, rfl, rfl, rfl, rfl, rfl, fun hs => ?_, fun hs ht => ?_, fun hs ht => ?_⟩
  · exact congrArg Nat.cast (run_outCur_eq h hs)
  · obtain ⟨u, hu, hstep⟩ := exists_last_step_of_run h hs
    exact decode_eq_halt_of_step hstep hu ht
  · obtain ⟨u, hu, hstep⟩ := exists_last_step_of_run h hs
    exact congrArg Nat.cast (faultPc_eq_of_step hstep hu ht)

end Sys2Proof.Machine

/-! PROOFS. The exceptions of `60_exceptions.md`: the words that fault `UnknownOpcode` (R171), the cause of every other
fault of an instruction (R170, R172 to R174), and fault entry (R176). -/

namespace Sys2Proof.Machine

/-! ## Every step has an answer (log entry 6) -/

/-- Settles O11: a running step answers what its commit leaves, and a step request in a terminal status the same state. -/
theorem everyStepAnswersANextState : Obligations.EveryStepAnswersANextState := by
  unfold Obligations.EveryStepAnswersANextState
  exact exists_step_eq_next

/-! ## Unknown opcodes (R171) -/

/-- Settles O9: the opcode of a negative word has no row either, and DISPATCH comes before every operand. -/
theorem unknownOpcodeFaults : Obligations.UnknownOpcodeFaults := by
  unfold Obligations.UnknownOpcodeFaults
  refine ⟨rfl, fun s hs hpc hw => ?_⟩
  have hop : opcodeOf (s.tape.read s.pc) ∉ opcodeList := hw.elim opcodeOf_not_mem_of_neg id
  exact step_of_opcodeOf_not_mem hs hpc hop

/-! ## The cause of a fault, read from its kind (R170, R172, R173, R174) -/

/-- An `InvalidAddress` fault, which names the access that raised it (R25, R170). -/
def FaultRequest.IsAddress (f : FaultRequest) : Prop := f.kind = .invalidAddress ∧ f.access ≠ .none

/-- A value operand of the instruction consumes the mode digit `d`, which names no mode (R82, R172): operand 1, or
operand 2 once operand 1 has resolved. -/
def ConsumesBadDigit (s : State) (i : Instr) (d : Int) : Prop :=
  (consultsMode1 i = true ∧ i.modes.mode1 = .other d) ∨
  (∃ v, ValueIs s 1 i.modes.mode1 v ∧ consultsMode2 i v = true ∧ i.modes.mode2 = .other d)

section Causes

variable {s : State} {f : FaultRequest}

/-- A value operand fails to resolve for its mode digit or for an address (R81). -/
theorem cause_of_resolveValue_error {k : Nat} {m : Mode} (h : resolveValue s k m = .error f) :
    f.IsAddress ∨ ∃ d, m = .other d ∧ f = ⟨.invalidMode, .none, d⟩ := by
  obtain hmode | ⟨-, -, rfl⟩ | ⟨-, -, -, rfl⟩ := resolveValue_error.mp h
  · exact .inr hmode
  · exact .inl ⟨rfl, nofun⟩
  · exact .inl ⟨rfl, nofun⟩

/-- Every fault of an instruction is an address, a bad mode digit that a value operand consumes, the end of the input in an
IN, or an overflow. -/
theorem Raises.cause {i : Instr} (h : Raises s i f) :
    f.IsAddress ∨ (∃ d, ConsumesBadDigit s i d ∧ f = ⟨.invalidMode, .none, d⟩) ∨
    ((∃ m, i = .inp m) ∧ s.cfg.inputLen ≤ s.inCur ∧ f = ⟨.inputExhausted, .none, (s.inCur : Int)⟩) ∨
    f = ⟨.arithmeticOverflow, .none, 0⟩ := by
  cases h with
  | operand1 hc h =>
    obtain haddr | ⟨d, hd, hf⟩ := cause_of_resolveValue_error h
    · exact .inl haddr
    · exact .inr (.inl ⟨d, .inl ⟨hc, hd⟩, hf⟩)
  | operand2 hv hc h =>
    obtain haddr | ⟨d, hd, hf⟩ := cause_of_resolveValue_error h
    · exact .inl haddr
    · exact .inr (.inl ⟨d, .inr ⟨_, valueIs_iff.mpr hv, hc, hd⟩, hf⟩)
  | input h =>
    obtain ⟨hend, hf⟩ := inRead_error.mp h
    exact .inr (.inr (.inl ⟨⟨_, rfl⟩, hend, hf⟩))
  | addOverflow _ _ h | mulOverflow _ _ h =>
    obtain ⟨-, -, hf⟩ := narrow_error.mp h
    exact .inr (.inr (.inr hf))
  | address _ h =>
    obtain ⟨-, rfl⟩ := argRead_error.mp h
    exact .inl ⟨rfl, nofun⟩
  | write _ h =>
    obtain ⟨-, rfl⟩ := memWrite_error.mp h
    exact .inl ⟨rfl, nofun⟩
  | read _ h =>
    obtain ⟨-, rfl⟩ := memRead_error.mp h
    exact .inl ⟨rfl, nofun⟩
  | jump _ h =>
    obtain ⟨-, rfl⟩ := jumpTo_error.mp h
    exact .inl ⟨rfl, nofun⟩

theorem Raises.consumesBadDigit_of_invalidMode {i : Instr} (h : Raises s i f) (hkind : f.kind = .invalidMode) :
    ConsumesBadDigit s i f.value := by
  obtain ⟨haddr, -⟩ | ⟨d, hd, rfl⟩ | ⟨-, -, rfl⟩ | rfl := h.cause
  · cases haddr.symm.trans hkind
  · exact hd
  · cases hkind
  · cases hkind

theorem Raises.inp_of_inputExhausted {i : Instr} (h : Raises s i f) (hkind : f.kind = .inputExhausted) :
    (∃ m, i = .inp m) ∧ s.cfg.inputLen ≤ s.inCur ∧ f.value = (s.inCur : Int) := by
  obtain ⟨haddr, -⟩ | ⟨d, -, rfl⟩ | ⟨hi, hend, rfl⟩ | rfl := h.cause
  · cases haddr.symm.trans hkind
  · cases hkind
  · exact ⟨hi, hend, rfl⟩
  · cases hkind

end Causes

/-- Where the fault of a step comes from: the fetch, the dispatch, or the instruction at `PC`. -/
theorem faulted_step_cases {s t : State} (h : step s = .next t) (hs : s.status = .running)
    (ht : t.status = .faulted) :
    ∃ f, t = s.takeFault f ∧
      (f = ⟨.invalidAddress, .fetch, (s.pc : Int)⟩ ∨
       f = ⟨.unknownOpcode, .none, opcodeOf (s.tape.read s.pc)⟩ ∨
       ∃ i, decode (s.tape.read s.pc) = .ok i ∧ Raises s i f) := by
  obtain ⟨hns, -⟩ | ⟨-, -, ht⟩ | ⟨-, -, ht⟩ | ⟨-, -, i, f, hi, -, hraises, ht⟩ | ⟨-, -, i, -, -, hc⟩ := step_cases h
  · exact absurd hs hns
  · exact ⟨_, ht, .inl rfl⟩
  · exact ⟨_, ht, .inr (.inl rfl)⟩
  · exact ⟨f, ht, .inr (.inr ⟨i, hi, hraises⟩)⟩
  · exact absurd ht (hc.status_ne_faulted hs)

/-! ## Bad mode digits (R172) -/

theorem resolveValue_of_other {s : State} {k : Nat} {m : Mode} {d : Int} (h : m = .other d) :
    resolveValue s k m = .error ⟨.invalidMode, .none, d⟩ := resolveValue_error.mpr (.inl ⟨d, h, rfl⟩)

/-- Settles O41: the mode check is the first check of a value operand, and no other operation raises the kind. -/
theorem invalidModeFaults : Obligations.InvalidModeFaults := by
  unfold Obligations.InvalidModeFaults
  refine ⟨rfl, fun i s d hc hm => ?_, fun i s v d _ hv hc hm => ?_, fun i s t hs h ht hkind => ?_⟩
  · exact exec_faulted (attempt_of_operand1_error hc (resolveValue_of_other hm)) (by decide)
  · exact exec_faulted (attempt_of_operand2_error hv hc (resolveValue_of_other hm)) (by decide)
  · obtain ⟨f, -, hraises, rfl⟩ | ⟨-, hc⟩ := exec_cases h
    · exact hraises.consumesBadDigit_of_invalidMode hkind
    · exact absurd ht (hc.status_ne_faulted hs)

/-! ## The end of the input (R173) -/

/-- IN checks the input before its destination (R110). -/
theorem attempt_inp_of_exhausted {s : State} {m : Modes} (hd : HasOperand s 1) (h : s.cfg.inputLen ≤ s.inCur) :
    attempt (.inp m) s = .error ⟨.inputExhausted, .none, (s.inCur : Int)⟩ := by
  have hin : inRead s = .error ⟨.inputExhausted, .none, (s.inCur : Int)⟩ := inRead_error.mpr ⟨h, rfl⟩
  simp only [attempt, resolveAddress_of_hasOperand hd, hin, ok_bind, error_bind]

/-- Settles O46: the input check is the one operation that raises the kind, and only IN makes it. -/
theorem inputExhaustedFaults : Obligations.InputExhaustedFaults := by
  unfold Obligations.InputExhaustedFaults
  refine ⟨rfl, fun m s hd hend => exec_faulted (attempt_inp_of_exhausted hd hend) (by decide),
    fun s t h hs ht hkind => ?_⟩
  obtain ⟨f, rfl, rfl | rfl | ⟨i, hi, hraises⟩⟩ := faulted_step_cases h hs ht
  · cases hkind
  · cases hkind
  · obtain ⟨⟨m, rfl⟩, hend, hvalue⟩ := hraises.inp_of_inputExhausted hkind
    exact ⟨⟨m, hi⟩, hend, hvalue, fun hle => hvalue.trans (congrArg Nat.cast (hle.antisymm hend))⟩

/-! ## Fault entry (R176) -/

/-- A fault has a kind, and the access it records is that of an address fault (R25). -/
def FaultRequest.WellTagged (f : FaultRequest) : Prop :=
  f.kind ≠ .none ∧ (f.access ≠ .none ↔ f.kind = .invalidAddress)

theorem FaultRequest.IsAddress.wellTagged {f : FaultRequest} (h : f.IsAddress) : f.WellTagged := by
  obtain ⟨hkind, haccess⟩ := h
  exact ⟨by simp [hkind], iff_of_true haccess hkind⟩

/-- A fault of another kind than `InvalidAddress` has no access. -/
theorem FaultRequest.wellTagged_of_access_none {f : FaultRequest} (h : f.access = .none) (h0 : f.kind ≠ .none)
    (h1 : f.kind ≠ .invalidAddress) : f.WellTagged :=
  ⟨h0, iff_of_false (not_not.mpr h) h1⟩

theorem Raises.wellTagged {s : State} {i : Instr} {f : FaultRequest} (h : Raises s i f) : f.WellTagged := by
  obtain haddr | ⟨d, -, rfl⟩ | ⟨-, -, rfl⟩ | rfl := h.cause
  · exact haddr.wellTagged
  · exact FaultRequest.wellTagged_of_access_none rfl nofun nofun
  · exact FaultRequest.wellTagged_of_access_none rfl nofun nofun
  · exact FaultRequest.wellTagged_of_access_none rfl nofun nofun

/-- A step that faults is fault entry on the state before it, with a kind and the access that goes with it. -/
theorem exists_wellTagged_of_faulted_step {s t : State} (h : step s = .next t) (hs : s.status = .running)
    (ht : t.status = .faulted) : ∃ f : FaultRequest, f.WellTagged ∧ t = s.takeFault f := by
  obtain ⟨f, hf, hcause⟩ := faulted_step_cases h hs ht
  refine ⟨f, ?_, hf⟩
  obtain rfl | rfl | ⟨i, -, hraises⟩ := hcause
  · exact FaultRequest.IsAddress.wellTagged ⟨rfl, nofun⟩
  · exact FaultRequest.wellTagged_of_access_none rfl nofun nofun
  · exact hraises.wellTagged

/-- Settles O13: fault entry writes the status and the record, and the result of `run` reads the record back. -/
theorem faultsArePrecise : Obligations.FaultsArePrecise := by
  unfold Obligations.FaultsArePrecise
  intro s t h hs ht
  obtain ⟨f, ⟨hkind, haccess⟩, rfl⟩ := exists_wellTagged_of_faulted_step h hs ht
  exact ⟨f.kind, f.access, f.value, hkind, haccess, rfl, rfl, rfl⟩

end Sys2Proof.Machine

/-! PROOFS. Reset and the run of `70_reset_and_hazards.md`: the state that `construct` builds (R190, R192), its invariant
(R193), and the bound on the steps of `run` (R197). -/

namespace Sys2Proof.Machine

/-! ## The constructed state (R190, R193) -/

theorem construct_eq_some {cfg : Config} {ws : List Word} {s : State} :
    construct cfg ws = some s ↔ Constructible cfg ws ∧ s = State.initial cfg ws := by
  simp [construct, eq_comm]

/-- Settles O52: a constructed state is the initial one, whose tape is made from the words given. -/
theorem constructBuildsTheResetState : Obligations.ConstructBuildsTheResetState := by
  unfold Obligations.ConstructBuildsTheResetState
  intro cfg ws s h
  obtain ⟨-, rfl⟩ := construct_eq_some.mp h
  refine ⟨rfl, fun k hk => ?_, rfl, rfl, rfl, rfl, rfl, rfl, faultRecordZero_iff.mpr rfl⟩
  exact (Memory.read_ofWords ws k).trans (List.getD_eq_getElem ws _ hk)

/-- The duty of the host is the range of the parameters that the invariant asks for (R7, R193). -/
theorem configOk_initial {cfg : Config} {ws : List Word} (h : Constructible cfg ws) :
    ConfigOk (State.initial cfg ws) := by
  obtain ⟨hwidth, -, hinput, hsize, hlen⟩ := h
  exact ⟨hwidth, hinput, hlen, hsize⟩

/-- The cells of the first tape hold words of the sequence given, which `construct` has checked (R160). -/
theorem tapeOk_initial {cfg : Config} {ws : List Word} (h : ∀ v ∈ ws, Fits cfg.wordBits v) :
    TapeOk (State.initial cfg ws) :=
  ⟨State.wf_initial cfg ws, fun c hc => h c.2 (cellsFrom_mem c hc).1⟩

theorem registersOk_initial (cfg : Config) (ws : List Word) : RegistersOk (State.initial cfg ws) :=
  ⟨Nat.zero_le _, Nat.zero_le _, rfl, List.forall_mem_nil _⟩

/-- Settles O20: the host's duty gives the parameters and the tape, and the registers and the record are at reset. -/
theorem constructMeetsTheInvariant : Obligations.ConstructMeetsTheInvariant := by
  unfold Obligations.ConstructMeetsTheInvariant
  intro cfg ws s h
  obtain ⟨hcons, rfl⟩ := construct_eq_some.mp h
  have ⟨_, htape, _⟩ := hcons
  exact ⟨configOk_initial hcons, tapeOk_initial htape, registersOk_initial cfg ws, nofun,
    fun _ => faultRecordZero_iff.mpr rfl⟩

/-! ## The bound on a run (R197) -/

/-- A larger bound changes nothing: the run takes the same steps, and a terminal state answers under every bound. -/
theorem run_add_of_run {k : Nat} {s t : State} {r : RunResult} (h : run k s = some (t, r)) (n : Nat) :
    run (k + n) s = some (t, r) := by
  induction k generalizing s with
  | zero =>
    by_cases hs : s.status = .running
    · simp [run, hs] at h
    · rwa [run_of_terminal hs] at h ⊢
  | succ k ih =>
    by_cases hs : s.status = .running
    · obtain ⟨u, hu⟩ := exists_step_eq_next s
      rw [Nat.add_right_comm, run_succ hs hu]
      exact ih ((run_succ hs hu k).symm.trans h)
    · rwa [run_of_terminal hs] at h ⊢

/-- Settles O57: the run under the larger bound takes the same steps to the same end. -/
theorem runResultDoesNotDependOnTheBound : Obligations.RunResultDoesNotDependOnTheBound := by
  unfold Obligations.RunResultDoesNotDependOnTheBound
  exact fun k n s t r h => run_add_of_run h n

end Sys2Proof.Machine
